-- ==== Sys2Proof/Word.lean ====
section
/-! DEFINITION. The words the block is made of: registers, bytes, bit strings (spec/00_scope.md R6, R7). -/

namespace Sys2Proof

/-- A host-visible register: `REG_W` = 32 bits (R6, R11). -/
abbrev Word := BitVec 32

/-- A Byte is a number 0..255; a Symbol is one Byte (R6 `SYM_W`, R7, R81). -/
abbrev Byte := BitVec 8

/-- A finite sequence of Byte (R7). -/
abbrev Bytes := List Byte

/-- A finite sequence of Bit, first bit first; a sequence, not a number (R7). -/
abbrev BitString := List Bool

end Sys2Proof
end

