-- ==== Sys2Proof/Config.lean ====
section
/-! DEFINITION. What one implementation fixes (00_scope.md R6) and the free values the spec leaves open
(93_implementation_defined.md V1 to V4). -/

namespace Sys2Proof

/-- The three byte buffers (20_memory.md R40). -/
inductive Buf where
  | ibuf
  | obuf
  | cbuf
deriving DecidableEq, Repr

/-- The implementation parameters that R6 leaves to the implementation; the definitions of the model take them as
an argument. -/
structure Params where
  /-- `IN_CAP`, the capacity of `IBUF` in bytes. -/
  inCap : Nat
  /-- `OUT_CAP`, the capacity of `OBUF` in bytes. -/
  outCap : Nat
  /-- `WS`, the byte values that count as trailing whitespace (R80). -/
  ws : List Byte
deriving DecidableEq, Repr

namespace Config

/-- `CB_CAP`, the capacity of `CBUF` in bytes, fixed (R6). -/
def cbCap : Nat := 66304

/-- `CODE_MAX`, the longest code in bits, fixed (R6). -/
def codeMax : Nat := 255

/-- `NSYM_MAX`, the size of the alphabet, fixed (R6). -/
def nsymMax : Nat := 256

/-- The values of this hardware: the defaults of R6. -/
def hw : Params where
  inCap := 65536
  outCap := 524288
  ws := [0x09#8, 0x0A#8, 0x0B#8, 0x0C#8, 0x0D#8, 0x20#8]

/-- FREE VALUE. The byte that offset `off` of buffer `b` holds while its contents are unspecified (V1 to V4), in the
buffer's `gen`-th unspecified generation. It has no body: a claim is true whatever these bytes are (log 4, log 5). -/
opaque freeByte (b : Buf) (gen off : Nat) : Byte

end Config

/-- The number of bytes of a buffer: offsets 0..cap-1 exist (R40). -/
def Params.cap (P : Params) : Buf → Nat
  | .ibuf => P.inCap
  | .obuf => P.outCap
  | .cbuf => Config.cbCap

end Sys2Proof
end

