-- ==== Sys2Proof/Syntax.lean ====
section
/-! DEFINITION. The command set: one constructor per row of spec/opcode_table.json (30_encoding.md R61). -/

namespace Sys2Proof

/-- The five commands of HUFFCORE command set 1. No command has an operand field (R60, R70). -/
inductive Instr where
  /-- `NOP`, R153. -/
  | nop
  /-- `COMPRESS`, R154. -/
  | compress
  /-- `DECOMPRESS`, R155. -/
  | decompress
  /-- `CLRERR`, R156. -/
  | clrerr
  /-- `CLEAR`, R157. -/
  | clear
deriving DecidableEq, Repr

end Sys2Proof
end

