-- ==== Sys2Proof/WellFormed.lean ====
section
/-! DEFINITION. Well-formedness of the syntax and of the data the stage functions exchange: instructions, parameters
(R6), code tables (R30), header bytes (R64). Each is a Bool. -/

namespace Sys2Proof

/-- Every command is well formed: no command has an operand field (30_encoding.md R60). -/
def Instr.wf : Instr → Bool
  | .nop | .compress | .decompress | .clrerr | .clear => true

/-- The constraints R6 puts on the parameters. -/
def Params.wf (P : Params) : Bool :=
  decide (1 ≤ P.inCap) && decide (P.inCap ≤ 2 ^ 24) && decide (P.inCap + 2 ≤ P.outCap) && decide (P.outCap ≤ 2 ^ 27)

/-- One entry (code, Symbol) of a reverse code table (10_state.md R30). -/
abbrev Entry := BitString × Byte

/-- `RCT`, an ordered list of entries (R30, D31). -/
abbrev RevTable := List Entry

/-- A code is a BitString of 1..255 bits (R30, R65). -/
def codeWf (c : BitString) : Bool := decide (1 ≤ c.length) && decide (c.length ≤ Config.codeMax)

/-- R30: every code has 1..255 bits, all codes are distinct, all Symbols are distinct. -/
def RevTable.wf (t : RevTable) : Bool :=
  t.all (fun e => codeWf e.1) && decide ((t.map Prod.fst).Nodup) && decide ((t.map Prod.snd).Nodup)

/-- Header bytes of a well-formed stream are 0x01..0x08 (30_encoding.md R64). -/
def headerWf (p : Byte) : Bool := decide (1 ≤ p.toNat) && decide (p.toNat ≤ 8)

/-- No code of the table is a proper or improper initial part of a different entry's code (R29, R104 item 3). -/
def RevTable.codesApart (t : RevTable) : Bool :=
  decide (t.Pairwise fun e f => ¬ e.1 <+: f.1 ∧ ¬ f.1 <+: e.1)

end Sys2Proof
end

