-- ==== Sys2Proof/Decode.lean ====
section
/-! DEFINITION. The command word `CMD32` (30_encoding.md R60 to R62): its decoder, total on every 32-bit word and rejecting
by name, and its encoder. -/

namespace Sys2Proof

/-- Why a word is a reserved encoding (R62). Both kinds end in `IllegalCommandError` at execution (R158). -/
inductive DecodeError where
  /-- The field `zero`, bits 31:8, is not 0. -/
  | upperBitsSet
  /-- The upper bits are 0 and the opcode is 0x03..0x0F or 0x12..0xFF. -/
  | reservedOpcode
deriving DecidableEq, Repr

/-- Bits 7:0 of a command word (R60). -/
def opcodeField (w : Word) : Byte := w.extractLsb' 0 8

/-- Bits 31:8 of a command word, which must be 0 (R60). -/
def zeroField (w : Word) : BitVec 24 := w.extractLsb' 8 24

/-- The opcode map of R61. -/
def decodeOpcode (op : Byte) : Except DecodeError Instr :=
  if op = 0x00#8 then .ok .nop
  else if op = 0x01#8 then .ok .compress
  else if op = 0x02#8 then .ok .decompress
  else if op = 0x10#8 then .ok .clrerr
  else if op = 0x11#8 then .ok .clear
  else .error .reservedOpcode

/-- The command a 32-bit word stands for; every other word is reserved, by name (R60, R61, R62). -/
def decodeWord (w : Word) : Except DecodeError Instr :=
  if zeroField w = 0#24 then decodeOpcode (opcodeField w) else .error .upperBitsSet

/-- The opcode of a command (R61). -/
def opcodeOf : Instr → Byte
  | .nop => 0x00#8
  | .compress => 0x01#8
  | .decompress => 0x02#8
  | .clrerr => 0x10#8
  | .clear => 0x11#8

/-- The command word of a command: `zero` = 0 above its opcode (R60, R61). -/
def encode (i : Instr) : Word := 0#24 ++ opcodeOf i

/-- The host's numbering of an instruction's bits: `CMD32` is one 32-bit word, so the bits are the word's own. A number
that does not fit in `nbits` bits or in one word is no command word. -/
def decodeTableWord (nbits w : Nat) : Option Instr :=
  if w < 2 ^ nbits ∧ w < 2 ^ 32 then (decodeWord (BitVec.ofNat 32 w)).toOption else none

end Sys2Proof
end

