-- ==== Sys2Proof/Machine/State.lean ====
section
/-! DEFINITION. The state of the block, as plain data (10_state.md R10 to R26, R36), the environment's events and answers,
the error kinds (60_exceptions.md R170), and reset. -/

namespace Sys2Proof.Machine

/-- One byte buffer. `cells` lists the offsets whose value is specified, in rising order; an offset that is not listed
holds an unspecified byte, which reads as `Config.freeByte` of the buffer's generation (log 4, log 5). -/
structure Memory where
  cells : List Host.Cell
  gen : Nat
deriving DecidableEq, Repr

/-- One atomic event of the block's environment, in the notation of 30_encoding.md R71 (log 1). -/
inductive Event where
  /-- `rreg`: `HostReadReg(n)`. -/
  | readReg (n : Nat)
  /-- `wreg`, `cmd`: `HostWriteReg(n, w)`. -/
  | writeReg (n : Nat) (w : Word)
  /-- `rbuf`: `HostReadBuf(SP, off)`. -/
  | readBuf (b : Buf) (off : Nat)
  /-- `wbuf`: `HostWriteBuf(SP, off, v)`. -/
  | writeBuf (b : Buf) (off : Nat) (v : Byte)
  /-- `step`: the engine takes its turn (R151). -/
  | engine
  /-- A hardware reset (R190, R191). -/
  | hardReset
deriving DecidableEq, Repr

/-- What one host read returned, with the access it answers (log 3). -/
inductive Answer where
  | reg (n : Nat) (v : Word)
  | byte (b : Buf) (off : Nat) (v : Byte)
deriving DecidableEq, Repr

/-- The six error kinds (60_exceptions.md R170). -/
inductive ErrorKind where
  /-- Code 1, R171. -/
  | emptyInput
  /-- Code 2, R172. -/
  | unencodableSymbol
  /-- Code 3, R173. -/
  | codebookFormat
  /-- Code 4, R174. -/
  | corruptStream
  /-- Code 5, R175. -/
  | capacity
  /-- Code 6, R176. -/
  | illegalCommand
deriving DecidableEq, Repr

/-- The block: registers (R11 to R22), the latch `OPC` (R23), the buffers (R24 to R26); then the model's own view of
the environment: the events still to come and the answers given, newest first (log 1, log 3). -/
structure State where
  /-- `STATUS` bit 0 (R13). -/
  busy : Bool
  /-- `STATUS` bit 1 (R13). -/
  done : Bool
  /-- `STATUS` bit 2 (R13). -/
  err : Bool
  /-- `ERRCODE` bits 3:0; bits 31:4 read as 0 (R14). -/
  errcode : BitVec 4
  ilen : Word
  clen : Word
  olen : Word
  slen : Word
  nsym : Word
  bitlen : Word
  pad : Word
  rootfreq : Word
  /-- `OPC`, the command word latched at acceptance (R23). -/
  opc : Word
  ibuf : Memory
  obuf : Memory
  cbuf : Memory
  script : List Event
  answers : List Answer
deriving DecidableEq, Repr

/-- Reasons the machine stops. There are none: every host action and every engine step is total
(93_implementation_defined.md, end of part 2); the block's errors are next states (R179). Log 15. -/
inductive Fault where
deriving DecidableEq, Repr

/-- Reasons a step has no meaning. -/
inductive Refusal where
  /-- Raised only by an arm of `exec` that has no meaning yet; no arm raises it now. Safe: the machine stops. -/
  | notModelled (mnemonic : String)
deriving DecidableEq, Repr

/-- A buffer all of whose bytes are unspecified, in its first generation (R190, log 5). -/
def Memory.unspecified : Memory := { cells := [], gen := 0 }

/-- The block right after a hardware reset (R36, R190): every register 0, `OPC` 0, every buffer byte unspecified. The
environment has planned nothing and read nothing. -/
def State.reset : State where
  busy := false
  done := false
  err := false
  errcode := 0
  ilen := 0
  clen := 0
  olen := 0
  slen := 0
  nsym := 0
  bitlen := 0
  pad := 0
  rootfreq := 0
  opc := 0
  ibuf := .unspecified
  obuf := .unspecified
  cbuf := .unspecified
  script := []
  answers := []

end Sys2Proof.Machine
end

