-- ==== Sys2Proof/Machine/Flags.lean ====
section
/-! DEFINITION. `STATUS` and `ERRCODE` (10_state.md R13, R14): how the flags read as a word, the error codes, and the named
changes of the flags (47_commands.md R150, R151; 60_exceptions.md R179, R180). -/

namespace Sys2Proof.Machine

/-- `STATUS` as the host reads it: bits 2, 1, 0 are `ERR`, `DONE`, `BUSY`, bits 31:3 read as 0 (R13). -/
def State.statusWord (s : State) : Word :=
  BitVec.ofNat 32 (4 * s.err.toNat + 2 * s.done.toNat + s.busy.toNat)

/-- `ERRCODE` as the host reads it: bits 31:4 read as 0 (R14). -/
def State.errcodeWord (s : State) : Word := s.errcode.setWidth 32

/-- The code of an error kind (R170). -/
def ErrorKind.code : ErrorKind → BitVec 4
  | .emptyInput => 1
  | .unencodableSymbol => 2
  | .codebookFormat => 3
  | .corruptStream => 4
  | .capacity => 5
  | .illegalCommand => 6

/-- Acceptance of a command: `BUSY` set, `DONE` cleared (R150). -/
def State.flagsAccept (s : State) : State := { s with busy := true, done := false }

/-- Normal completion: `BUSY` cleared, `DONE` set (R151, R152). -/
def State.complete (s : State) : State := { s with busy := false, done := true }

/-- Error entry: `BUSY`, `DONE` cleared, `ERR` set, `ERRCODE` written (R179). -/
def State.flagsError (e : ErrorKind) (s : State) : State :=
  { s with busy := false, done := false, err := true, errcode := e.code }

/-- Acknowledging an error clears `ERR` and `ERRCODE` and restores nothing (R156, R180). -/
def State.acknowledge (s : State) : State := { s with err := false, errcode := 0 }

end Sys2Proof.Machine
end

