-- ==== Sys2Proof/Machine/Ops.lean ====
section
/-! DEFINITION. The named operations over buffers and registers (20_memory.md R41 to R43, R49; 10_state.md R11 to R26),
error entry (60_exceptions.md R179), clearing (47_commands.md R157) and hardware reset (70_reset_and_hazards.md R190). -/

namespace Sys2Proof.Machine

/-! ### One buffer -/

/-- The offsets of a cell list strictly rise. -/
def risingCells (cs : List Host.Cell) : Bool := decide (cs.Pairwise fun c d => c.1 < d.1)

/-- The canonical form of a buffer: listed offsets strictly rise. An unlisted offset has no specified value, so no
entry can equal what it reads as (log 4). -/
def Memory.wf (m : Memory) : Bool := risingCells m.cells

/-- The value listed for an offset. -/
def lookupCell : List Host.Cell → Nat → Option Byte
  | [], _ => none
  | (a, v) :: cs, off => if off = a then some v else lookupCell cs off

/-- Put a value at an offset of a rising cell list, keeping it rising. -/
def insertCell : List Host.Cell → Nat → Byte → List Host.Cell
  | [], off, v => [(off, v)]
  | (a, u) :: cs, off, v =>
    if off < a then (off, v) :: (a, u) :: cs
    else if off = a then (off, v) :: cs
    else (a, u) :: insertCell cs off v

/-- The byte an offset is specified to hold, `none` where its value is unspecified (V1 to V4). -/
def Memory.known (m : Memory) (off : Nat) : Option Byte := lookupCell m.cells off

/-- `SP[off] <- v` (R41, R49). -/
def Memory.write (m : Memory) (off : Nat) (v : Byte) : Memory := { m with cells := insertCell m.cells off v }

/-- `MemWrite(SP, off, |vs|, vs)`: `SP[off + i] <- vs[i]` (R49). -/
def Memory.writeBytes (m : Memory) (off : Nat) : Bytes → Memory
  | [] => m
  | v :: vs => (m.writeBytes (off + 1) vs).write off v

/-- Every byte of the buffer becomes unspecified, a new generation of free values (R179, R190, log 5). -/
def Memory.forget (m : Memory) : Memory := { cells := [], gen := m.gen + 1 }

/-- Deliver a result into a buffer: the bytes at offset 0 upwards hold it, every byte above is unspecified (R25, R26). -/
def Memory.deliver (m : Memory) (vs : Bytes) : Memory := m.forget.writeBytes 0 vs

/-! ### The buffers of a state -/

/-- The buffer of a space. -/
def State.mem (s : State) : Buf → Memory
  | .ibuf => s.ibuf
  | .obuf => s.obuf
  | .cbuf => s.cbuf

/-- Replace the buffer of a space. -/
def State.setMem (s : State) (b : Buf) (m : Memory) : State :=
  match b with
  | .ibuf => { s with ibuf := m }
  | .obuf => { s with obuf := m }
  | .cbuf => { s with cbuf := m }

/-- The byte `SP[off]`: the listed value, or the free value of an unspecified byte (V1 to V4, log 4). -/
def State.byte (s : State) (b : Buf) (off : Nat) : Byte :=
  ((s.mem b).known off).getD (Config.freeByte b (s.mem b).gen off)

/-- `MemRead(SP, off, n)` (R49). -/
def State.memRead (s : State) (b : Buf) (off n : Nat) : Bytes :=
  (List.range n).map fun i => s.byte b (off + i)

/-! ### Registers -/

/-- The value of a register by number. `CMD` (0) stores nothing and reads 0 (R12); numbers 11 and above do not exist
and read 0 (R11, R42). -/
def State.readReg (s : State) (n : Nat) : Word :=
  match n with
  | 1 => s.statusWord
  | 2 => s.errcodeWord
  | 3 => s.ilen
  | 4 => s.clen
  | 5 => s.olen
  | 6 => s.slen
  | 7 => s.nsym
  | 8 => s.bitlen
  | 9 => s.pad
  | 10 => s.rootfreq
  | _ => 0

/-- The six result registers become 0, as at the acceptance of a work command (R150). -/
def State.zeroResults (s : State) : State :=
  { s with olen := 0, slen := 0, nsym := 0, bitlen := 0, pad := 0, rootfreq := 0 }

/-- Every register of R11 and `OPC` become 0; the buffers are not touched (R157). -/
def State.clearRegisters (s : State) : State :=
  { s with busy := false, done := false, err := false, errcode := 0, ilen := 0, clen := 0, olen := 0, slen := 0, nsym := 0,
           bitlen := 0, pad := 0, rootfreq := 0, opc := 0 }

/-- The command word the engine executes (R23, R151). -/
def State.fetchCommand (s : State) : Word := s.opc

/-! ### Acceptance, error entry, reset -/

/-- What the acceptance of `w` does to the registers (R150): `OPC` and the flags, and for a work command the result
registers (and `CLEN` for `COMPRESS`) become 0. -/
def State.accept (s : State) (w : Word) : State :=
  let t := { s.flagsAccept with opc := w }
  let t := if w = encode .compress ∨ w = encode .decompress then t.zeroResults else t
  if w = encode .compress then { t with clen := 0 } else t

/-- Make a buffer's bytes unspecified. -/
def State.forgetBuf (s : State) (b : Buf) : State := s.setMem b (s.mem b).forget

/-- `raise e` (R179), the one error entry. `lost` names the buffers the failed command may have written in part: all
their bytes become unspecified. Result registers, lengths and `IBUF` are not written. -/
def State.raiseError (e : ErrorKind) (lost : List Buf) (s : State) : State :=
  (lost.foldl State.forgetBuf s).flagsError e

/-- Hardware reset (R190, R191): every register and `OPC` 0, every buffer byte unspecified. The environment's plan and
the answers it has had are not the block's and stay. -/
def State.hardwareReset (s : State) : State :=
  ((s.clearRegisters.forgetBuf .ibuf).forgetBuf .obuf).forgetBuf .cbuf

end Sys2Proof.Machine
end

