-- ==== Sys2Proof/Machine/Operands.lean ====
section
/-! DEFINITION. The operand forms: the implicit operands of the work commands (30_encoding.md R70) and the order of bits
within bytes (20_memory.md R44). -/

namespace Sys2Proof.Machine

/-- `IBUF[0:ILEN]`, the raw text of `COMPRESS` and the stream of `DECOMPRESS` (R15, R70). -/
def State.inputBytes (s : State) : Bytes := s.memRead .ibuf 0 s.ilen.toNat

/-- `CBUF[0:CLEN]`, the codebook artifact (R16, R70). -/
def State.codebookBytes (s : State) : Bytes := s.memRead .cbuf 0 s.clen.toNat

/-- The eight bits of a byte, most significant first: bit `j` is `(y div 2^(7-j)) mod 2` (R44). -/
def byteBits (y : Byte) : BitString :=
  [y.getLsbD 7, y.getLsbD 6, y.getLsbD 5, y.getLsbD 4, y.getLsbD 3, y.getLsbD 2, y.getLsbD 1, y.getLsbD 0]

/-- The value of a run of bits, most significant first. -/
def bitsValue (bs : BitString) : Nat := bs.foldl (fun n b => 2 * n + b.toNat) 0

/-- `BytesToBits` (R44). -/
def bytesToBits (ys : Bytes) : BitString := ys.flatMap byteBits

/-- `BitsToBytes` (R44), for a BitString whose length is a multiple of 8; bits beyond the last whole byte are outside
its domain and are dropped (log 12). -/
def bitsToBytes : BitString → Bytes
  | b7 :: b6 :: b5 :: b4 :: b3 :: b2 :: b1 :: b0 :: rest =>
    BitVec.ofNat 8 (bitsValue [b7, b6, b5, b4, b3, b2, b1, b0]) :: bitsToBytes rest
  | _ => []

end Sys2Proof.Machine
end

