-- ==== Sys2Proof/Machine/Serializer.lean ====
section
/-! DEFINITION. The codebook serializer `CbSer` (44_codebook_serializer.md R120 to R122) and the artifact's characters
(30_encoding.md R66 to R68). -/

namespace Sys2Proof.Machine

/-- The delimiter `','` (R66). -/
def charComma : Byte := 0x2C#8

/-- The line terminator `LF` (R66). -/
def charLF : Byte := 0x0A#8

/-- `HexDigit(d)`, upper case (R67). -/
def hexDigit (d : Nat) : Byte := BitVec.ofNat 8 (if d ≤ 9 then 0x30 + d else 0x41 + (d - 10))

/-- The Symbol field: two hexadecimal digits, high digit first (R67). -/
def symbolField (s : Byte) : Bytes := [hexDigit (s.toNat / 16), hexDigit (s.toNat % 16)]

/-- The code field: one character `'0'` or `'1'` per bit, first bit first (R68). -/
def codeField (c : BitString) : Bytes := c.map fun b => if b then 0x31#8 else 0x30#8

/-- `Line(code, sym)` without its terminator (R121). -/
def lineBody (e : Entry) : Bytes := symbolField e.2 ++ charComma :: codeField e.1

/-- `CbSer(RCT)`: one terminated line per entry, in list order (R120, R122). -/
def cbSer (t : RevTable) : Bytes := t.flatMap fun e => lineBody e ++ [charLF]

end Sys2Proof.Machine
end

