-- ==== Sys2Proof/Machine/Loader.lean ====
section
/-! DEFINITION. The codebook loader `CbLoad` (45_codebook_loader.md R130 to R136). -/

namespace Sys2Proof.Machine

/-- `SplitLF(U)`: cut at every `LF` and drop it; `k` terminators give `k + 1` lines (R132). -/
def splitLF : Bytes → List Bytes
  | [] => [[]]
  | x :: xs =>
    if x = charLF then [] :: splitLF xs
    else
      match splitLF xs with
      | [] => [[x]]
      | l :: ls => (x :: l) :: ls

/-- `HexVal(c)`, `none` for a character not in "0123456789ABCDEF" (R133). -/
def hexVal (c : Byte) : Option Nat :=
  if 0x30 ≤ c.toNat ∧ c.toNat ≤ 0x39 then some (c.toNat - 0x30)
  else if 0x41 ≤ c.toNat ∧ c.toNat ≤ 0x46 then some (c.toNat - 0x41 + 10)
  else none

/-- The Symbol field is exactly two upper-case hexadecimal digits (R133). -/
def parseSymbol : Bytes → Option Byte
  | [hi, lo] =>
    match hexVal hi, hexVal lo with
    | some h, some l => some (BitVec.ofNat 8 (16 * h + l))
    | _, _ => none
  | _ => none

/-- The code field's characters, each `'0'` or `'1'`, taken verbatim (R133). -/
def parseBits : Bytes → Option BitString
  | [] => some []
  | c :: cs =>
    if c = 0x30#8 then (parseBits cs).map (false :: ·)
    else if c = 0x31#8 then (parseBits cs).map (true :: ·)
    else none

/-- The code field: 1 to 255 characters (R133). -/
def parseCode (f : Bytes) : Option BitString :=
  if f.length < 1 ∨ Config.codeMax < f.length then none else parseBits f

/-- The bytes left and right of the first delimiter, `none` if there is none (R133). -/
def splitComma : Bytes → Option (Bytes × Bytes)
  | [] => none
  | x :: xs => if x = charComma then some ([], xs) else (splitComma xs).map fun p => (x :: p.1, p.2)

/-- `ParseLine(ln)` (R133); `none` is `CodebookFormatError`. -/
def parseLine (ln : Bytes) : Option Entry :=
  match splitComma ln with
  | none => none
  | some (symf, codef) =>
    match parseSymbol symf, parseCode codef with
    | some s, some c => some (c, s)
    | _, _ => none

/-- The lines in order, each appended to the table unless its Symbol or its code already has an entry
(R130, R134, R135). -/
def loadLines : List Bytes → RevTable → Except ErrorKind RevTable
  | [], t => .ok t
  | ln :: lns, t =>
    match parseLine ln with
    | none => .error .codebookFormat
    | some e =>
      if t.any (fun f => f.2 == e.2) || t.any (fun f => f.1 == e.1) then .error .codebookFormat
      else loadLines lns (t ++ [e])

/-- `CbLoad(T)`: an empty or unterminated artifact is an error (R131); else its lines are loaded (R130). -/
def cbLoad (T : Bytes) : Except ErrorKind RevTable :=
  match T.getLast? with
  | none => .error .codebookFormat
  | some z => if z = charLF then loadLines (splitLF T.dropLast) [] else .error .codebookFormat

end Sys2Proof.Machine
end

