-- ==== Sys2Proof/Machine/Frequency.lean ====
section
/-! DEFINITION. Input conditioning and the frequency analyzer: `Trim` (40_frequency_analyzer.md R80) and `Analyze` (R82). -/

namespace Sys2Proof.Machine

/-- `FT`, the FrequencyTable: a counter for each of the 256 Symbols (10_state.md R27). -/
abbrev FreqTable := Byte → Nat

/-- `Trim(X)`: bytes are removed from the end while the last one is in `WS` (R80). -/
def trim (P : Params) (X : Bytes) : Bytes := (X.reverse.dropWhile fun x => P.ws.contains x).reverse

/-- `FT[x] <- FT[x] + 1` (R82). -/
def FreqTable.bump (ft : FreqTable) (x : Byte) : FreqTable := fun y => if y = x then ft y + 1 else ft y

/-- The counters after one pass over the sequence, all starting at 0 (R82). -/
def countSymbols (S : Bytes) : FreqTable := S.foldl FreqTable.bump fun _ => 0

/-- The 256 Symbols in their natural order. -/
def allSymbols : Bytes := (List.range 256).map (BitVec.ofNat 8)

/-- The Symbols of a table's domain, `FT[s] > 0`, in natural order (R27). -/
def FreqTable.domain (ft : FreqTable) : Bytes := allSymbols.filter fun s => 0 < ft s

/-- `Analyze(S)`: the table and `N`, the number of distinct Symbols; an empty sequence is an error (R82). -/
def analyze (S : Bytes) : Except ErrorKind (FreqTable × Nat) :=
  if S = [] then .error .emptyInput
  else .ok (countSymbols S, (countSymbols S).domain.length)

end Sys2Proof.Machine
end

