-- ==== Sys2Proof/Machine/TreeBuilder.lean ====
section
/-! DEFINITION. The tree builder `Build` (41_tree_builder.md R90 to R95): a min-priority merge under the key
(frequency, node index). -/

namespace Sys2Proof.Machine

/-- A HuffNode (10_state.md R28, glossary): a leaf is slot `sym` of `NODE`; an internal node records its slot, 256 + k for
the k-th merge, its frequency and its children. The children are held as subtrees, not as slot numbers (log 10). -/
inductive HuffNode where
  | leaf (sym : Byte) (freq : Nat)
  | internal (slot : Nat) (freq : Nat) (left right : HuffNode)
deriving DecidableEq, Repr

namespace HuffNode

/-- `NODE[i].freq` (R28). -/
def freq : HuffNode → Nat
  | leaf _ f => f
  | internal _ f _ _ => f

/-- The node index: a leaf's is its Symbol, an internal node's its slot (R28). -/
def index : HuffNode → Nat
  | leaf s _ => s.toNat
  | internal i _ _ _ => i

/-- The leaves' Symbols, left to right. -/
def symbols : HuffNode → Bytes
  | leaf s _ => [s]
  | internal _ _ l r => l.symbols ++ r.symbols

/-- The internal slots of the tree memory as `(index, freq, left, right)` (R28), children before parents. -/
def slots : HuffNode → List (Nat × Nat × Nat × Nat)
  | leaf _ _ => []
  | internal i f l r => l.slots ++ r.slots ++ [(i, f, l.index, r.index)]

/-- The depth of the deepest leaf (R96 item 6). -/
def depth : HuffNode → Nat
  | leaf _ _ => 0
  | internal _ _ l r => max l.depth r.depth + 1

/-- The priority order: frequency first, then node index (R92). -/
def before (a b : HuffNode) : Bool :=
  decide (a.freq < b.freq) || (decide (a.freq = b.freq) && decide (a.index < b.index))

end HuffNode

/-- `PQ`: the nodes not yet merged (R31, R91). -/
abbrev Queue := List HuffNode

/-- `ExtractMin(PQ)`: the node with the least key, and the queue without it (R92). `none` on an empty queue. -/
def extractMin : Queue → Option (HuffNode × Queue)
  | [] => none
  | x :: xs =>
    match extractMin xs with
    | none => some (x, [])
    | some (m, rest) => if m.before x then some (m, x :: rest) else some (x, xs)

/-- The initial queue: one leaf for each Symbol that occurs (R91). -/
def initialQueue (ft : FreqTable) : Queue := ft.domain.map fun s => .leaf s (ft s)

/-- The node merge `k` creates from the first node extracted (left) and the second (right) (R93). -/
def mergeNode (k : Nat) (a b : HuffNode) : HuffNode := .internal (256 + k) (a.freq + b.freq) a b

/-- The merge loop from merge number `k` on: while two nodes remain, merge the two least (R90, R93). `fuel` bounds the
number of merges; the length of the queue is always enough. -/
def mergeLoop : (fuel k : Nat) → Queue → Queue
  | 0, _, pq => pq
  | fuel + 1, k, pq =>
    match extractMin pq with
    | none => pq
    | some (a, pq1) =>
      match extractMin pq1 with
      | none => pq
      | some (b, pq2) => mergeLoop fuel (k + 1) (mergeNode k a b :: pq2)

/-- `Build(FT)`: the root, the one node left (R94, R95). `none` only for an empty table, which is outside `Build`'s
domain (log 13). -/
def build (ft : FreqTable) : Option HuffNode :=
  (mergeLoop (initialQueue ft).length 0 (initialQueue ft)).head?

end Sys2Proof.Machine
end

