-- ==== Sys2Proof/Machine/CodeTable.lean ====
section
/-! DEFINITION. The code-table generator `GenCodes` (42_code_table_generator.md R100 to R103): a depth-first walk, left edge 0,
right edge 1. -/

namespace Sys2Proof.Machine

/-- `CT`, the CodeTable: the code of each Symbol, the empty BitString (`len` = 0) where it has no entry
(10_state.md R29). -/
abbrev CodeTable := Byte → BitString

/-- `CT` and `RCT`, which are written together (R103). -/
structure Tables where
  ct : CodeTable
  rct : RevTable

/-- Two empty tables (R100). -/
def Tables.empty : Tables := { ct := fun _ => [], rct := [] }

/-- `Register(s, path)`: enter the Symbol's code in `CT`, and append the pair to `RCT` (R103). -/
def Tables.register (t : Tables) (s : Byte) (path : BitString) : Tables where
  ct := fun y => if y = s then path else t.ct y
  rct := t.rct ++ [(path, s)]

/-- `Visit(i, path)`: the left subtree wholly before the right one; a left edge appends 0, a right edge 1 (R101). -/
def HuffNode.visit : HuffNode → BitString → Tables → Tables
  | .leaf s _, path, t => t.register s path
  | .internal _ _ l r, path, t => r.visit (path ++ [true]) (l.visit (path ++ [false]) t)

/-- `GenCodes(NODE, ROOT)`; a root that is a leaf gets the fixed code `"0"` (R100, R102). -/
def genCodes (root : HuffNode) : Tables :=
  match root with
  | .leaf s _ => Tables.empty.register s [false]
  | .internal _ _ _ _ => root.visit [] .empty

end Sys2Proof.Machine
end

