-- ==== Sys2Proof/Machine/Packer.lean ====
section
/-! DEFINITION. The bit-stream packer `Pack` (43_bitstream_encoder.md R110 to R117). -/

namespace Sys2Proof.Machine

/-- The results of `Pack`: the EncodedStream `E`, the payload length `L` in bits, the padding count `p` (R110). -/
structure Packed where
  stream : Bytes
  bitLen : Nat
  pad : Nat
deriving DecidableEq, Repr

/-- `p = 8 - (L mod 8)`, always 1..8 (R113). -/
def padding (L : Nat) : Nat := 8 - L % 8

/-- `Header(p)`: `p` as eight bits, most significant first (R114). -/
def header (p : Nat) : BitString := byteBits (BitVec.ofNat 8 p)

/-- The concatenation of the Symbols' codes, in input order (R112). -/
def concatCodes (S : Bytes) (ct : CodeTable) : BitString := S.flatMap ct

/-- The whole bit sequence `Z` of a stream with payload `B` (R114). -/
def streamBits (B : BitString) : BitString :=
  header (padding B.length) ++ B ++ List.replicate (padding B.length) false

/-- `Pack(S, CT)` (R110): a Symbol without a code is an error before anything else (R111); a stream that does not fit
`OBUF` is an error (R116). -/
def pack (P : Params) (S : Bytes) (ct : CodeTable) : Except ErrorKind Packed :=
  if S.any fun x => (ct x).isEmpty then .error .unencodableSymbol
  else
    let B := concatCodes S ct
    let Z := streamBits B
    if P.outCap < Z.length / 8 then .error .capacity
    else .ok { stream := bitsToBytes Z, bitLen := B.length, pad := padding B.length }

end Sys2Proof.Machine
end

