-- ==== Sys2Proof/Machine/Unpacker.lean ====
section
/-! DEFINITION. The bit-stream unpacker and greedy code-match lookup `Unpack` (46_bitstream_decoder.md R140 to R148). -/

namespace Sys2Proof.Machine

/-- The results of `Unpack`: the emitted Symbols `O`, the number of payload bits `Lp`, the header value `p` (R140). -/
structure Unpacked where
  out : Bytes
  bitLen : Nat
  pad : Nat
deriving DecidableEq, Repr

/-- The Symbol whose code equals the candidate exactly, if any (R145). -/
def matchCode (t : RevTable) (cand : BitString) : Option Byte := (t.find? fun e => e.1 == cand).map Prod.snd

/-- The greedy walk (R145): after each bit, a candidate that equals a code emits its Symbol and is reset. Answers the
Symbols emitted and the candidate left over. -/
def walk (t : RevTable) : (P cand : BitString) → (O : Bytes) → Bytes × BitString
  | [], cand, O => (O, cand)
  | b :: P, cand, O =>
    match matchCode t (cand ++ [b]) with
    | some s => walk t P [] (O ++ [s])
    | none => walk t P (cand ++ [b]) O

/-- `Unpack(E, RCT)` (R140): no header, a header outside 1..8, fewer bits than the header promises, a leftover candidate
are `CorruptStreamError` in that order (R141, R142, R146); then the output's capacity is checked (R148). -/
def unpack (P : Params) (E : Bytes) (t : RevTable) : Except ErrorKind Unpacked :=
  match E with
  | [] => .error .corruptStream
  | p :: rest =>
    if p.toNat < 1 ∨ 8 < p.toNat then .error .corruptStream
    else
      let W := bytesToBits rest
      if W.length < p.toNat then .error .corruptStream
      else
        let payload := W.take (W.length - p.toNat)
        let r := walk t payload [] []
        if r.2 ≠ [] then .error .corruptStream
        else if P.outCap < r.1.length then .error .capacity
        else .ok { out := r.1, bitLen := payload.length, pad := p.toNat }

end Sys2Proof.Machine
end

