-- ==== Sys2Proof/Machine/Commands.lean ====
section
/-! DEFINITION. The five commands (47_commands.md R153 to R157): the two compositions of the stage functions, and one meaning
per command. A meaning is the engine's whole step for its command, completion (R151) or error entry (R179) included. -/

namespace Sys2Proof.Machine

/-! ### The two compositions, as pure functions -/

/-- What a successful `COMPRESS` delivers (R154). -/
structure Compressed where
  packed : Packed
  artifact : Bytes
  symLen : Nat
  nsym : Nat
  rootFreq : Nat
deriving DecidableEq, Repr

/-- `COMPRESS` on the raw text `X`: stage functions 1 to 5 in order, the first error ending it (R154, R160). -/
def compressText (P : Params) (X : Bytes) : Except ErrorKind Compressed :=
  let S := trim P X
  match analyze S with
  | .error e => .error e
  | .ok (ft, n) =>
    match build ft with
    | none => .error .emptyInput
    | some root =>
      let tables := genCodes root
      match pack P S tables.ct with
      | .error e => .error e
      | .ok pk =>
        .ok { packed := pk, artifact := cbSer tables.rct, symLen := S.length, nsym := n, rootFreq := root.freq }

/-- What a successful `DECOMPRESS` delivers (R155). -/
structure Decompressed where
  unpacked : Unpacked
  nsym : Nat
deriving DecidableEq, Repr

/-- `DECOMPRESS` of the stream `E` under the artifact `T`: the codebook is loaded first (R155, R160). -/
def decompressStream (P : Params) (T E : Bytes) : Except ErrorKind Decompressed :=
  match cbLoad T with
  | .error e => .error e
  | .ok t =>
    match unpack P E t with
    | .error e => .error e
    | .ok u => .ok { unpacked := u, nsym := t.length }

/-! ### Delivering the results -/

/-- The writes of a successful `COMPRESS` (R154): the stream to `OBUF`, the artifact to `CBUF`, seven registers. -/
def State.deliverCompressed (r : Compressed) (s : State) : State :=
  { s with
    obuf := s.obuf.deliver r.packed.stream
    cbuf := s.cbuf.deliver r.artifact
    olen := BitVec.ofNat 32 r.packed.stream.length
    clen := BitVec.ofNat 32 r.artifact.length
    slen := BitVec.ofNat 32 r.symLen
    nsym := BitVec.ofNat 32 r.nsym
    bitlen := BitVec.ofNat 32 r.packed.bitLen
    pad := BitVec.ofNat 32 r.packed.pad
    rootfreq := BitVec.ofNat 32 r.rootFreq }

/-- The writes of a successful `DECOMPRESS` (R155): the Symbols to `OBUF`, six registers. -/
def State.deliverDecompressed (r : Decompressed) (s : State) : State :=
  { s with
    obuf := s.obuf.deliver r.unpacked.out
    olen := BitVec.ofNat 32 r.unpacked.out.length
    slen := BitVec.ofNat 32 r.unpacked.out.length
    nsym := BitVec.ofNat 32 r.nsym
    bitlen := BitVec.ofNat 32 r.unpacked.bitLen
    pad := BitVec.ofNat 32 r.unpacked.pad
    rootfreq := 0 }

/-- `COMPRESS` under the parameters `P` (R154). A failure leaves `OBUF` and `CBUF` unspecified (R179). -/
def State.compress (P : Params) (s : State) : State :=
  if P.inCap < s.ilen.toNat then s.raiseError .capacity [.obuf, .cbuf]
  else
    match compressText P s.inputBytes with
    | .error e => s.raiseError e [.obuf, .cbuf]
    | .ok r => (s.deliverCompressed r).complete

/-- `DECOMPRESS` under the parameters `P` (R155). A failure leaves `OBUF` unspecified (R179). -/
def State.decompress (P : Params) (s : State) : State :=
  if P.inCap < s.ilen.toNat ∨ Config.cbCap < s.clen.toNat then s.raiseError .capacity [.obuf]
  else
    match decompressStream P s.codebookBytes s.inputBytes with
    | .error e => s.raiseError e [.obuf]
    | .ok r => (s.deliverDecompressed r).complete

/-! ### The meanings -/

/-- `NOP` (R153). -/
def execNop (s : State) : Host.Outcome State Fault Refusal := .next s.complete

/-- `COMPRESS` (R154), at this hardware's parameters. -/
def execCompress (s : State) : Host.Outcome State Fault Refusal := .next (s.compress Config.hw)

/-- `DECOMPRESS` (R155), at this hardware's parameters. -/
def execDecompress (s : State) : Host.Outcome State Fault Refusal := .next (s.decompress Config.hw)

/-- `CLRERR` (R156). -/
def execClrerr (s : State) : Host.Outcome State Fault Refusal := .next s.acknowledge.complete

/-- `CLEAR` (R157): it does not set `DONE`. -/
def execClear (s : State) : Host.Outcome State Fault Refusal := .next s.clearRegisters

/-- A reserved command word (R158): `IllegalCommandError`, no buffer lost (R179). -/
def execReserved (s : State) : Host.Outcome State Fault Refusal := .next (s.raiseError .illegalCommand [])

end Sys2Proof.Machine
end

