-- ==== Sys2Proof/Machine/HostPort.lean ====
section
/-! DEFINITION. The host's accesses (20_memory.md R41 to R43), command acceptance (47_commands.md R150), and the host-script
notation (30_encoding.md R71, R72). -/

namespace Sys2Proof.Machine

/-- `HostReadReg(n)`: while `BUSY = 1` only `STATUS` answers (R41, R42, R43). -/
def State.hostReadReg (s : State) (n : Nat) : Word :=
  if s.busy ∧ n ≠ 1 then 0 else s.readReg n

/-- `HostReadBuf(SP, off)`: 0 while `BUSY = 1` and outside the space's range (R41, R42, R43). -/
def State.hostReadBuf (P : Params) (s : State) (b : Buf) (off : Nat) : Byte :=
  if s.busy ∨ P.cap b ≤ off then 0 else s.byte b off

/-- `HostWriteReg(0, w)`: a command request. It is dropped while `BUSY = 1`, and while `ERR = 1` unless it is `CLRERR` or
`CLEAR` (R150, R181). -/
def State.requestCommand (s : State) (w : Word) : State :=
  if s.busy then s
  else if s.err ∧ w ≠ encode .clrerr ∧ w ≠ encode .clear then s
  else s.accept w

/-- `HostWriteReg(n, w)`: `CMD`, `ILEN` and `CLEN` are writable; any other write, and any write while `BUSY = 1`, is
dropped (R41, R42, R43). -/
def State.hostWriteReg (s : State) (n : Nat) (w : Word) : State :=
  if s.busy then s
  else
    match n with
    | 0 => s.requestCommand w
    | 3 => { s with ilen := w }
    | 4 => { s with clen := w }
    | _ => s

/-- The host may write `IBUF` and `CBUF`; `OBUF` it only reads (R40). -/
def hostWritable : Buf → Bool
  | .ibuf => true
  | .obuf => false
  | .cbuf => true

/-- `HostWriteBuf(SP, off, v)`: dropped while `BUSY = 1`, outside the range, and for `OBUF` (R41, R42, R43). -/
def State.hostWriteBuf (P : Params) (s : State) (b : Buf) (off : Nat) (v : Byte) : State :=
  if s.busy ∨ P.cap b ≤ off ∨ hostWritable b = false then s
  else s.setMem b ((s.mem b).write off v)

/-- Note what a host read returned (log 3). -/
def State.note (s : State) (a : Answer) : State := { s with answers := a :: s.answers }

/-- One event of the environment other than the engine's turn, which is not its business (R41, R190). -/
def State.hostEvent (P : Params) (s : State) : Event → State
  | .readReg n => s.note (.reg n (s.hostReadReg n))
  | .writeReg n w => s.hostWriteReg n w
  | .readBuf b off => s.note (.byte b off (s.hostReadBuf P b off))
  | .writeBuf b off v => s.hostWriteBuf P b off v
  | .engine => s
  | .hardReset => s.hardwareReset

/-! ### The script notation of R71 and R72 -/

/-- `wbuf SP, off, b0 b1 ...` (R71). -/
def scriptWbuf (b : Buf) (off : Nat) : Bytes → List Event
  | [] => []
  | v :: vs => .writeBuf b off v :: scriptWbuf b (off + 1) vs

/-- `rbuf SP, off, n` (R71). -/
def scriptRbuf (b : Buf) (off n : Nat) : List Event := (List.range n).map fun i => .readBuf b (off + i)

/-- `cmd MNEMONIC` (R71). -/
def scriptCmd (i : Instr) : List Event := [.writeReg 0 (encode i)]

/-- `load SP, b0 b1 ...`: the bytes and then the length register (R72). `OBUF` has no length the host may write. -/
def scriptLoad (b : Buf) (vs : Bytes) : List Event :=
  scriptWbuf b 0 vs ++
    match b with
    | .ibuf => [.writeReg 3 (BitVec.ofNat 32 vs.length)]
    | .cbuf => [.writeReg 4 (BitVec.ofNat 32 vs.length)]
    | .obuf => []

/-- `run MNEMONIC`: the command, the engine's turn, one read of `STATUS` (R72). -/
def scriptRun (i : Instr) : List Event := scriptCmd i ++ [.engine, .readReg 1]

/-- `move OBUF -> IBUF`, for a host whose reads of `OBUF` return `vs` (R72): the length read, the pairs of a buffer read
and a buffer write, the length written. -/
def scriptMove (vs : Bytes) : List Event :=
  .readReg 5 ::
    (vs.zipIdx.flatMap fun p => [.readBuf .obuf p.2, .writeBuf .ibuf p.2 p.1]) ++
    [.writeReg 3 (BitVec.ofNat 32 vs.length)]

end Sys2Proof.Machine
end

