-- ==== Sys2Proof/Machine/Engine.lean ====
section
/-! DEFINITION. The engine step (47_commands.md R151): when `BUSY = 1` the latched command is executed to completion. -/

namespace Sys2Proof.Machine

/-- Execute the command word in `OPC`; a reserved word is `IllegalCommandError` (R151, R158). -/
def executeLatched (s : State) : Host.Outcome State Fault Refusal :=
  match decodeWord s.fetchCommand with
  | .ok i => exec i s
  | .error _ => execReserved s

/-- The engine's turn. The engine step is enabled exactly when `BUSY = 1`; otherwise the turn changes nothing
(R151, log 2). -/
def engineTurn (s : State) : Host.Outcome State Fault Refusal :=
  if s.busy then executeLatched s else .next s

/-- One event of the script: the engine's turn, or an access of the host, or a reset (R5). -/
def takeEvent (e : Event) (s : State) : Host.Outcome State Fault Refusal :=
  match e with
  | .engine => engineTurn s
  | .readReg n => .next (s.hostEvent Config.hw (.readReg n))
  | .writeReg n w => .next (s.hostEvent Config.hw (.writeReg n w))
  | .readBuf b off => .next (s.hostEvent Config.hw (.readBuf b off))
  | .writeBuf b off v => .next (s.hostEvent Config.hw (.writeBuf b off v))
  | .hardReset => .next (s.hostEvent Config.hw .hardReset)

end Sys2Proof.Machine
end

