-- ==== Sys2Proof/Machine/Step.lean ====
section
/-! DEFINITION. The one step of the machine: the next event of the script, or the engine's turn when the script is empty
(00_scope.md R5, 47_commands.md R161), and how the host's checks place a command (log 14). -/

namespace Sys2Proof.Machine

/-- One atomic step of one of the two agents (R5). -/
def step (s : State) : Host.Outcome State Fault Refusal :=
  match s.script with
  | [] => engineTurn s
  | e :: rest => takeEvent e { s with script := rest }

/-- The state in which the very next step executes the command word `w`: what acceptance does (R150), whatever the flags
were, and the turn given to the engine. -/
def State.withFetchWord (s : State) (nbits w : Nat) : State :=
  let t := s.accept (BitVec.ofNat 32 (w % 2 ^ nbits))
  match s.script with
  | [] => t
  | e :: rest => { t with script := .engine :: e :: rest }

end Sys2Proof.Machine
end

