-- ==== Sys2Proof/Safety.lean ====
section
/-! DEFINITION. What claims mean by a well-behaved run and a legal state: the host's duties (70_reset_and_hazards.md R195, R196),
the invariant of the state (10_state.md R13, R14, R17 to R22) and the invariants of the tree (41_tree_builder.md R96). -/

namespace Sys2Proof.Machine

/-! ### The host's duties -/

/-- Every byte below `n` has a specified value. -/
def Memory.covers (m : Memory) (n : Nat) : Bool := (List.range n).all fun i => (m.known i).isSome

/-- R195: no length register that the command reads covers an unspecified byte. -/
def operandsWritten (i : Instr) (s : State) : Bool :=
  match i with
  | .nop | .clrerr | .clear => true
  | .compress => s.ibuf.covers s.ilen.toNat
  | .decompress => s.ibuf.covers s.ilen.toNat && s.cbuf.covers s.clen.toNat

/-- R196: between the `CMD` write and `BUSY = 0` the host touches nothing but `STATUS`. -/
def Event.allowedWhileBusy : Event → Bool
  | .readReg n => n == 1
  | .writeReg _ _ => false
  | .readBuf _ _ => false
  | .writeBuf _ _ _ => false
  | .engine => true
  | .hardReset => true

/-! ### The legal states -/

/-- A word is one of the two work commands. -/
def isWork (w : Word) : Bool := w == encode .compress || w == encode .decompress

/-- The six result registers are 0. -/
abbrev State.resultsZero (s : State) : Prop :=
  s.olen = 0 ∧ s.slen = 0 ∧ s.nsym = 0 ∧ s.bitlen = 0 ∧ s.pad = 0 ∧ s.rootfreq = 0

/-- R13: at most one of `BUSY`, `DONE`, at most one of `DONE`, `ERR`; `BUSY` and `ERR` together only while a `CLRERR` or a
`CLEAR` is pending. -/
structure FlagsLegal (s : State) : Prop where
  busy_not_done : s.busy = true → s.done = false
  done_not_err : s.done = true → s.err = false
  busy_err : s.busy = true → s.err = true → s.opc = encode .clrerr ∨ s.opc = encode .clear

/-- R14, R170, R172: `ERRCODE = 0` exactly when `ERR = 0`, and it is one of 0, 1, 3, 4, 5, 6. -/
structure ErrcodeLegal (s : State) : Prop where
  zero_iff : s.errcode = 0 ↔ s.err = false
  at_most_six : s.errcode.toNat ≤ 6
  not_two : s.errcode ≠ 2

/-- Every listed offset is below the capacity. -/
def Memory.within (m : Memory) (cap : Nat) : Bool := m.cells.all fun c => decide (c.1 < cap)

/-- Every buffer is in canonical form and inside its capacity (R24 to R26). -/
structure BuffersLegal (s : State) : Prop where
  canonical : ∀ b, (s.mem b).wf = true
  inside : ∀ b, (s.mem b).within (Config.hw.cap b) = true

/-- R17 to R22, R150, R179: what the result registers say of the output. -/
structure ResultsLegal (s : State) : Prop where
  /-- `OLEN` counts bytes that `OBUF` really holds (R17, R25). -/
  output_specified : s.obuf.covers s.olen.toNat = true
  output_fits : s.olen.toNat ≤ Config.hw.outCap
  /-- `NSYM` is at most 256 (R19), `PAD` at most 8 (R21). -/
  nsym_le : s.nsym.toNat ≤ Config.nsymMax
  pad_le : s.pad.toNat ≤ 8
  /-- `ROOTFREQ` is 0 or equals `SLEN` (R22). -/
  rootfreq_eq : s.rootfreq = 0 ∨ s.rootfreq = s.slen
  /-- Every Symbol takes at least one payload bit (R154). -/
  slen_le : s.slen.toNat ≤ s.bitlen.toNat
  /-- The result registers are 0 from acceptance (R150, R17). -/
  pending_zero : s.busy = true → isWork s.opc = true → s.resultsZero
  /-- `CLEN` is 0 from the acceptance of a `COMPRESS` (R16, R150). -/
  pending_clen : s.busy = true → s.opc = encode .compress → s.clen = 0
  /-- After a failed work command they are still 0 (R17 to R22, R179). -/
  failed_zero : s.err = true → s.errcode ≠ ErrorKind.illegalCommand.code → s.resultsZero

/-- The invariant of the machine. -/
structure Inv (s : State) : Prop where
  flags : FlagsLegal s
  code : ErrcodeLegal s
  buffers : BuffersLegal s
  results : ResultsLegal s

/-! ### The tree's invariants -/

/-- "frequency of an Internal node equals the sum of its children's frequencies" (R96 item 2). -/
def HuffNode.sumsOk : HuffNode → Prop
  | .leaf _ _ => True
  | .internal _ f l r => f = l.freq + r.freq ∧ l.sumsOk ∧ r.sumsOk

/-- A child's index is smaller than its parent's (R96 item 4). -/
def HuffNode.childrenOlder : HuffNode → Prop
  | .leaf _ _ => True
  | .internal i _ l r => l.index < i ∧ r.index < i ∧ l.childrenOlder ∧ r.childrenOlder

/-- At every internal node the left child's key (frequency, index) is below the right child's: the node extracted first is the
left child (R93, R92). -/
def HuffNode.childrenOrdered : HuffNode → Prop
  | .leaf _ _ => True
  | .internal _ _ l r =>
    (l.freq < r.freq ∨ l.freq = r.freq ∧ l.index < r.index) ∧ l.childrenOrdered ∧ r.childrenOrdered

/-- Every leaf holds the count of its Symbol (R91). -/
def HuffNode.leavesCount (ft : FreqTable) : HuffNode → Prop
  | .leaf s f => f = ft s
  | .internal _ _ l r => l.leavesCount ft ∧ r.leavesCount ft

/-! ### Success and failure of an operation, as the host would see it -/

/-- The state `s` becomes when a command raises `e` and loses the contents of `OBUF`, and of `CBUF` if `cb` (R179). -/
def State.failed (s : State) (e : ErrorKind) (cb : Bool) : State :=
  { s with busy := false, done := false, err := true, errcode := e.code, obuf := s.obuf.forget,
           cbuf := if cb then s.cbuf.forget else s.cbuf }

end Sys2Proof.Machine
end

