-- ==== Sys2Proof/Certificates/Slice0/Obligations.lean ====
section
/-! DEFINITION. The statements for the provers. Each docstring names the rule of spec/ it formalises. -/

open Sys2Proof Sys2Proof.Machine

/-! ### Encoding -/

/-- R61, R62: the command words of the opcode map, and reserved words of both kinds (vectors V-E1 to V-E7). -/
def Obligations.CommandWordsDecode : Prop :=
  decodeWord 0x00000000#32 = .ok .nop ∧ decodeWord 0x00000001#32 = .ok .compress ∧
  decodeWord 0x00000002#32 = .ok .decompress ∧ decodeWord 0x00000010#32 = .ok .clrerr ∧
  decodeWord 0x00000011#32 = .ok .clear ∧
  decodeWord 0x00000003#32 = .error .reservedOpcode ∧ decodeWord 0x0000000F#32 = .error .reservedOpcode ∧
  decodeWord 0x00000012#32 = .error .reservedOpcode ∧ decodeWord 0x000000FF#32 = .error .reservedOpcode ∧
  decodeWord 0x00000100#32 = .error .upperBitsSet ∧ decodeWord 0x00000101#32 = .error .upperBitsSet ∧
  decodeWord 0x80000001#32 = .error .upperBitsSet ∧ decodeWord 0xFFFFFFFF#32 = .error .upperBitsSet ∧
  decodeWord 0x00010010#32 = .error .upperBitsSet

/-- R60, R61, R62: a word decodes to a command exactly when it is that command's word; every other 32-bit word is reserved,
for its upper bits exactly when they are not 0. -/
def Obligations.DecodeEncodeAgree : Prop :=
  (∀ (w : Word) (i : Instr), decodeWord w = .ok i ↔ w = encode i) ∧
  (∀ w : Word, (∀ i, w ≠ encode i) →
    (256 ≤ w.toNat → decodeWord w = .error .upperBitsSet) ∧ (w.toNat < 256 → decodeWord w = .error .reservedOpcode))

/-! ### Reset -/

/-- R36: after reset every register reads 0, `OPC` is 0 and no byte of a buffer has a specified value. -/
def Obligations.ResetReadsZero : Prop :=
  (∀ n, State.reset.hostReadReg n = 0) ∧ State.reset.busy = false ∧ State.reset.done = false ∧ State.reset.err = false ∧
  State.reset.errcode = 0 ∧ State.reset.opc = 0 ∧ ∀ b off, (State.reset.mem b).known off = none

/-- The state after reset meets the invariant. -/
def Obligations.ResetMeetsInvariant : Prop := Inv State.reset

/-- R190, R191: a reset at any moment, a pending command or not, gives every register and `OPC` the value 0 and leaves every
buffer byte unspecified. The script goes on and the answers stay: the model's environment (log 1, log 3). -/
def Obligations.HardwareResetFromAnyState : Prop :=
  ∀ (s : State) (rest : List Event), s.script = .hardReset :: rest →
    ∃ t, step s = .next t ∧ (∀ n, t.hostReadReg n = 0) ∧ t.busy = false ∧ t.done = false ∧ t.err = false ∧ t.errcode = 0 ∧
      t.opc = 0 ∧ (∀ b off, (t.mem b).known off = none) ∧ t.script = rest ∧ t.answers = s.answers

/-! ### The step -/

/-- R151: when `BUSY = 1` and the engine has its turn, the step is `exec` of the latched command; at `BUSY = 0` the engine step is
not enabled, and its turn changes nothing. Whose turn it is stands in the script; an empty script gives the turn to the
engine (log 1, log 2). -/
def Obligations.StepRunsLatchedCommand : Prop :=
  (∀ (s : State) (i : Instr), s.busy = true → decodeWord s.opc = .ok i →
    (s.script = [] → step s = exec i s) ∧
    ∀ rest, s.script = .engine :: rest → step s = exec i { s with script := rest }) ∧
  ∀ s : State, s.busy = false →
    (s.script = [] → step s = .next s) ∧ ∀ rest, s.script = .engine :: rest → step s = .next { s with script := rest }

/-- R158, R62: executing a reserved word sets `ERR` with code 6, clears `BUSY` and `DONE`, and changes nothing else. -/
def Obligations.ReservedWordFails : Prop :=
  ∀ s : State, s.busy = true → (∀ i, s.opc ≠ encode i) →
    (s.script = [] → step s = .next { s with busy := false, done := false, err := true, errcode := 6 }) ∧
    ∀ rest, s.script = .engine :: rest →
      step s = .next { s with busy := false, done := false, err := true, errcode := 6, script := rest }

/-- "every host action and every engine step is total": no state faults or is refused (93 part 2). -/
def Obligations.StepIsTotal : Prop := ∀ s : State, ∃ t, step s = .next t

/-- R161, R43: a pending command is executed, at the engine's next turn, and in between the host's accesses can change neither it
nor its operands: when only host accesses come before that turn, the run to it ends in what `exec` of the latched command answers at
the state with its script moved on and some reads answered. After any events (a reset among them discards the command, R191)
and one turn more, nothing stays pending. The script, the turn at its end and the answers are the model's (log 1, log 2, log 3). -/
def Obligations.PendingCommandIsExecuted : Prop :=
  (∀ (s : State) (i : Instr) (before rest : List Event), s.busy = true → s.opc = encode i →
    (∀ e ∈ before, e ≠ .engine ∧ e ≠ .hardReset) →
    (s.script = before ∧ rest = [] ∨ s.script = before ++ .engine :: rest) →
    ∃ as, Host.Core.run Sys2Proof.core (before.length + 1) s = exec i { s with script := rest, answers := as }) ∧
  ∀ s : State, ∃ t, Host.Core.run Sys2Proof.core (s.script.length + 1) s = .next t ∧ t.busy = false ∧ t.script = []

/-! ### NOP, CLRERR, CLEAR -/

/-- R153: `NOP` completes; it writes `BUSY` and `DONE` and nothing else. -/
def Obligations.NopCompletes : Prop := ∀ s : State, exec .nop s = .next { s with busy := false, done := true }

/-- R156: `CLRERR` clears `ERR` and `ERRCODE`, completes, and restores nothing. -/
def Obligations.ClrerrCompletes : Prop :=
  ∀ s : State, exec .clrerr s = .next { s with err := false, errcode := 0, busy := false, done := true }

/-- R157: `CLEAR` zeroes every register and `OPC`, does not set `DONE`, and leaves the buffers as they were. -/
def Obligations.ClearCompletes : Prop :=
  ∀ s : State, ∃ t, exec .clear s = .next t ∧ (∀ n, t.readReg n = 0) ∧ t.busy = false ∧ t.done = false ∧ t.err = false ∧
    t.errcode = 0 ∧ t.opc = 0 ∧ t.ibuf = s.ibuf ∧ t.obuf = s.obuf ∧ t.cbuf = s.cbuf ∧ t.script = s.script ∧
    t.answers = s.answers

/-- The frame of the three commands that store nothing: every byte of every buffer reads as before. -/
def Obligations.NonWorkCommandsKeepBuffers : Prop :=
  ∀ (i : Instr) (s t : State), i = .nop ∨ i = .clrerr ∨ i = .clear → exec i s = .next t →
    (∀ b off, t.byte b off = s.byte b off) ∧ ∀ b off, (t.mem b).known off = (s.mem b).known off

/-! ### COMPRESS -/

/-- R154, R22, R25, R26: the whole effect of `COMPRESS` on an admitted text whose stream fits `OBUF` (it always does, see
`CompressNeverOverflows`): the stages' results in the registers, the stream and the artifact in the buffers with unspecified
bytes above them, all else unchanged. -/
def Obligations.CompressDelivers : Prop :=
  ∀ s : State, s.ilen.toNat ≤ Config.hw.inCap → trim Config.hw s.inputBytes ≠ [] →
    ∃ root, build (countSymbols (trim Config.hw s.inputBytes)) = some root ∧
      let S := trim Config.hw s.inputBytes
      let B := concatCodes S (genCodes root).ct
      let A := cbSer (genCodes root).rct
      B.length / 8 + 2 ≤ Config.hw.outCap →
        exec .compress s = .next { s with
          busy := false, done := true
          obuf := s.obuf.deliver (bitsToBytes (streamBits B)), olen := BitVec.ofNat 32 (B.length / 8 + 2)
          cbuf := s.cbuf.deliver A, clen := BitVec.ofNat 32 A.length
          slen := BitVec.ofNat 32 S.length, nsym := BitVec.ofNat 32 S.dedup.length
          bitlen := BitVec.ofNat 32 B.length, pad := BitVec.ofNat 32 (8 - B.length % 8)
          rootfreq := BitVec.ofNat 32 S.length }

/-- R116 (its closing claim, from general knowledge): on this hardware's capacities a `COMPRESS` of an admitted text never
overflows `OBUF`, so it completes. -/
def Obligations.CompressNeverOverflows : Prop :=
  ∀ s : State, s.ilen.toNat ≤ Config.hw.inCap → trim Config.hw s.inputBytes ≠ [] →
    ∃ t, exec .compress s = .next t ∧ t.busy = false ∧ t.done = true ∧ t.err = s.err ∧ t.errcode = s.errcode

/-- R154 corner cases: the relations among the result registers after a successful `COMPRESS`. -/
def Obligations.CompressResultRelations : Prop :=
  ∀ s t : State, exec .compress s = .next t → t.done = true →
    t.rootfreq = t.slen ∧ 1 ≤ t.nsym.toNat ∧ t.nsym.toNat ≤ 256 ∧ 1 ≤ t.pad.toNat ∧ t.pad.toNat ≤ 8 ∧
    t.olen.toNat = t.bitlen.toNat / 8 + 2 ∧ (t.bitlen.toNat + t.pad.toNat) % 8 = 0 ∧ t.slen.toNat ≤ t.ilen.toNat ∧
    t.slen.toNat ≤ t.bitlen.toNat

/-- R171, R175, R178, R179: the two errors `COMPRESS` raises before any tree is built, in their order. -/
def Obligations.CompressRaises : Prop :=
  ∀ s : State,
    (Config.hw.inCap < s.ilen.toNat → exec .compress s = .next (s.failed .capacity true)) ∧
    (s.ilen.toNat ≤ Config.hw.inCap → trim Config.hw s.inputBytes = [] →
      exec .compress s = .next (s.failed .emptyInput true))

/-- R154, R24: the frame of `COMPRESS`, success or failure: `IBUF`, `ILEN` and `OPC` are unchanged; on success so are `ERR` and
`ERRCODE`; on failure so are the lengths and result registers. -/
def Obligations.CompressFrame : Prop :=
  ∀ s t : State, exec .compress s = .next t →
    t.ibuf = s.ibuf ∧ (∀ off, t.byte .ibuf off = s.byte .ibuf off) ∧ t.ilen = s.ilen ∧ t.opc = s.opc ∧
    t.script = s.script ∧ t.answers = s.answers ∧ t.busy = false ∧
    (t.done = true → t.err = s.err ∧ t.errcode = s.errcode) ∧
    (t.done = false → t.clen = s.clen ∧ t.olen = s.olen ∧ t.slen = s.slen ∧ t.nsym = s.nsym ∧ t.bitlen = s.bitlen ∧
      t.pad = s.pad ∧ t.rootfreq = s.rootfreq)

/-- R25, R26, R154: the bytes a successful `COMPRESS` stores: offset `i` of `OBUF` below `OLEN` holds byte `i` of the stream that
`compressText` gives, offset `i` of `CBUF` below `CLEN` byte `i` of its artifact, and every byte above is unspecified. -/
def Obligations.CompressStoresResults : Prop :=
  ∀ (s t : State) (r : Compressed), exec .compress s = .next t → s.ilen.toNat ≤ Config.hw.inCap →
    compressText Config.hw s.inputBytes = .ok r →
    t.olen.toNat = r.packed.stream.length ∧ t.clen.toNat = r.artifact.length ∧
    (∀ off, t.obuf.known off = r.packed.stream[off]?) ∧ (∀ off, t.cbuf.known off = r.artifact[off]?)

/-- R32, R50: what a `COMPRESS` delivers depends on `ILEN` and on `IBUF[0:ILEN]` alone, on nothing an earlier operation left. -/
def Obligations.CompressDependsOnTextOnly : Prop :=
  ∀ s₁ s₂ : State, s₁.ilen = s₂.ilen → (∀ off, off < s₁.ilen.toNat → s₁.byte .ibuf off = s₂.byte .ibuf off) →
    ∃ t₁ t₂, exec .compress s₁ = .next t₁ ∧ exec .compress s₂ = .next t₂ ∧ t₁.done = t₂.done ∧
      (t₁.done = false → t₁.errcode = t₂.errcode) ∧
      (t₁.done = true → t₁.olen = t₂.olen ∧ t₁.clen = t₂.clen ∧ t₁.slen = t₂.slen ∧ t₁.nsym = t₂.nsym ∧
        t₁.bitlen = t₂.bitlen ∧ t₁.pad = t₂.pad ∧ t₁.rootfreq = t₂.rootfreq ∧
        (∀ off, t₁.obuf.known off = t₂.obuf.known off) ∧ ∀ off, t₁.cbuf.known off = t₂.cbuf.known off)

/-! ### DECOMPRESS -/

/-- R155, R25: the whole effect of `DECOMPRESS` when the codebook loads and the stream parses: six registers, `OBUF`, the flags;
all else unchanged. Offset `i` of `OBUF` then holds Symbol `i`, and every byte above the Symbols is unspecified. -/
def Obligations.DecompressDelivers : Prop :=
  ∀ (s : State) (t : RevTable) (u : Unpacked), s.ilen.toNat ≤ Config.hw.inCap → s.clen.toNat ≤ Config.cbCap →
    cbLoad s.codebookBytes = .ok t → unpack Config.hw s.inputBytes t = .ok u →
    exec .decompress s = .next { s with
      busy := false, done := true, obuf := s.obuf.deliver u.out
      olen := BitVec.ofNat 32 u.out.length, slen := BitVec.ofNat 32 u.out.length, nsym := BitVec.ofNat 32 t.length
      bitlen := BitVec.ofNat 32 u.bitLen, pad := BitVec.ofNat 32 u.pad, rootfreq := 0 } ∧
    ∀ off, (s.obuf.deliver u.out).known off = u.out[off]?

/-- R155, R135, R147 item 1: `DECOMPRESS` of a serialized prefix-free table and of a stream whose payload is a concatenation of
its codes emits exactly the Symbols of that concatenation, in order. -/
def Obligations.DecompressEmitsSymbols : Prop :=
  ∀ (s : State) (t : RevTable) (es : List Entry) (p : Byte) (rest : Bytes),
    s.ilen.toNat ≤ Config.hw.inCap → s.clen.toNat ≤ Config.cbCap →
    t ≠ [] → t.wf = true → t.codesApart = true → s.codebookBytes = cbSer t →
    s.inputBytes = p :: rest → headerWf p = true → rest ≠ [] → (∀ e ∈ es, e ∈ t) →
    (bytesToBits rest).take (8 * rest.length - p.toNat) = es.flatMap Prod.fst →
    exec .decompress s = .next { s with
      busy := false, done := true, obuf := s.obuf.deliver (es.map Prod.snd)
      olen := BitVec.ofNat 32 es.length, slen := BitVec.ofNat 32 es.length, nsym := BitVec.ofNat 32 t.length
      bitlen := BitVec.ofNat 32 (8 * rest.length - p.toNat), pad := p.setWidth 32, rootfreq := 0 }

/-- R178, R173, R174, R175, R179: the errors of `DECOMPRESS` in their order: capacity, codebook, stream. -/
def Obligations.DecompressRaises : Prop :=
  ∀ s : State,
    (Config.hw.inCap < s.ilen.toNat ∨ Config.cbCap < s.clen.toNat →
      exec .decompress s = .next (s.failed .capacity false)) ∧
    (s.ilen.toNat ≤ Config.hw.inCap → s.clen.toNat ≤ Config.cbCap →
      (∀ e, cbLoad s.codebookBytes = .error e → exec .decompress s = .next (s.failed .codebookFormat false)) ∧
      (∀ t e, cbLoad s.codebookBytes = .ok t → unpack Config.hw s.inputBytes t = .error e →
        exec .decompress s = .next (s.failed .corruptStream false)))

/-- R155: the frame of `DECOMPRESS`, success or failure: `IBUF`, `ILEN`, `CBUF`, `CLEN`, `OPC` are unchanged; on success so are
`ERR` and `ERRCODE`; on failure so are the result registers. -/
def Obligations.DecompressFrame : Prop :=
  ∀ s t : State, exec .decompress s = .next t →
    t.ibuf = s.ibuf ∧ t.cbuf = s.cbuf ∧ (∀ off, t.byte .ibuf off = s.byte .ibuf off) ∧
    (∀ off, t.byte .cbuf off = s.byte .cbuf off) ∧ t.ilen = s.ilen ∧ t.clen = s.clen ∧ t.opc = s.opc ∧
    t.script = s.script ∧ t.answers = s.answers ∧ t.busy = false ∧
    (t.done = true → t.err = s.err ∧ t.errcode = s.errcode) ∧
    (t.done = false → t.olen = s.olen ∧ t.slen = s.slen ∧ t.nsym = s.nsym ∧ t.bitlen = s.bitlen ∧ t.pad = s.pad ∧
      t.rootfreq = s.rootfreq)

/-- R154, R155, R199: the round trip at the machine's boundary. When a `COMPRESS` has completed and its stream, which fits `IBUF`,
and its artifact are the operands of a `DECOMPRESS`, that completes and `OBUF[0:OLEN]` is the original text without its
trailing whitespace. -/
def Obligations.CompressThenDecompress : Prop :=
  ∀ s t u : State, exec .compress s = .next t → t.done = true →
    t.olen.toNat ≤ Config.hw.inCap → u.ilen = t.olen → u.inputBytes = t.memRead .obuf 0 t.olen.toNat →
    u.clen = t.clen → u.codebookBytes = t.codebookBytes →
    ∃ v, exec .decompress u = .next v ∧ v.done = true ∧ v.olen = t.slen ∧ v.slen = t.slen ∧ v.nsym = t.nsym ∧
      v.bitlen = t.bitlen ∧ v.pad = t.pad ∧ v.rootfreq = 0 ∧
      v.memRead .obuf 0 v.olen.toNat = trim Config.hw s.inputBytes

/-! ### Registers and host accesses -/

/-- R13, R14: the fields of `STATUS` and `ERRCODE`; the reserved bits read as 0. -/
def Obligations.StatusAndErrcodeFields : Prop :=
  ∀ s : State, s.statusWord.getLsbD 0 = s.busy ∧ s.statusWord.getLsbD 1 = s.done ∧ s.statusWord.getLsbD 2 = s.err ∧
    (∀ i, 3 ≤ i → s.statusWord.getLsbD i = false) ∧
    (∀ i, i < 4 → s.errcodeWord.getLsbD i = s.errcode.getLsbD i) ∧ ∀ i, 4 ≤ i → s.errcodeWord.getLsbD i = false

/-- R11, R12, R41, R42: what a host read of each register returns while the block is idle; the read changes nothing but the
model's log of answers (log 3). -/
def Obligations.IdleRegisterReads : Prop :=
  ∀ (s : State) (n : Nat) (rest : List Event), s.busy = false → s.script = .readReg n :: rest →
    ∃ v, step s = .next { s with script := rest, answers := .reg n v :: s.answers } ∧
      (n = 0 → v = 0) ∧ (n = 1 → v = s.statusWord) ∧ (n = 2 → v = s.errcodeWord) ∧ (n = 3 → v = s.ilen) ∧
      (n = 4 → v = s.clen) ∧ (n = 5 → v = s.olen) ∧ (n = 6 → v = s.slen) ∧ (n = 7 → v = s.nsym) ∧
      (n = 8 → v = s.bitlen) ∧ (n = 9 → v = s.pad) ∧ (n = 10 → v = s.rootfreq) ∧ (11 ≤ n → v = 0)

/-- R41, R42: a host write of `ILEN` or `CLEN` stores the value as written; a write of any other register but `CMD` is
dropped. -/
def Obligations.IdleRegisterWrites : Prop :=
  ∀ (s : State) (n : Nat) (w : Word) (rest : List Event), s.busy = false → s.script = .writeReg n w :: rest →
    (n = 3 → step s = .next { s with script := rest, ilen := w }) ∧
    (n = 4 → step s = .next { s with script := rest, clen := w }) ∧
    (n ≠ 0 → n ≠ 3 → n ≠ 4 → step s = .next { s with script := rest })

/-- R41, R42: a host read of a buffer byte in range returns that byte, outside the range 0, and changes nothing but the model's
log of answers (log 3). -/
def Obligations.IdleBufferReads : Prop :=
  ∀ (s : State) (b : Buf) (off : Nat) (rest : List Event), s.busy = false → s.script = .readBuf b off :: rest →
    (off < Config.hw.cap b → step s = .next { s with script := rest, answers := .byte b off (s.byte b off) :: s.answers }) ∧
    (Config.hw.cap b ≤ off → step s = .next { s with script := rest, answers := .byte b off 0 :: s.answers })

/-- R41, R42, R47: a host write of a byte of `IBUF` or `CBUF` in range changes exactly that byte; a write of `OBUF` or outside
the range is dropped. -/
def Obligations.IdleBufferWrites : Prop :=
  ∀ (s : State) (b : Buf) (off : Nat) (v : Byte) (rest : List Event), s.busy = false →
    s.script = .writeBuf b off v :: rest →
    (b ≠ .obuf → off < Config.hw.cap b →
      ∃ t, step s = .next t ∧ (∀ b' off', t.byte b' off' = if b' = b ∧ off' = off then v else s.byte b' off') ∧
        (∀ b' off', (t.mem b').known off' = if b' = b ∧ off' = off then some v else (s.mem b').known off') ∧
        { t with ibuf := s.ibuf, cbuf := s.cbuf } = { s with script := rest }) ∧
    (b = .obuf ∨ Config.hw.cap b ≤ off → step s = .next { s with script := rest })

/-- R43: while `BUSY = 1` a read of `STATUS` returns it, every other read returns 0, and every write is dropped. -/
def Obligations.BusyAccesses : Prop :=
  ∀ (s : State) (rest : List Event), s.busy = true →
    (∀ n, s.script = .readReg n :: rest →
      step s = .next { s with script := rest, answers := .reg n (if n = 1 then s.statusWord else 0) :: s.answers }) ∧
    (∀ n w, s.script = .writeReg n w :: rest → step s = .next { s with script := rest }) ∧
    (∀ b off, s.script = .readBuf b off :: rest →
      step s = .next { s with script := rest, answers := .byte b off 0 :: s.answers }) ∧
    (∀ b off v, s.script = .writeBuf b off v :: rest → step s = .next { s with script := rest })

/-- R150, R181: the acceptance of a command: `OPC`, `BUSY`, `DONE`; a work command's acceptance zeroes the six result registers,
and that of `COMPRESS` also `CLEN`. While `ERR = 1` every word but `CLRERR` and `CLEAR`, and while `BUSY = 1` every word, is
dropped with no state change. -/
def Obligations.CommandAcceptance : Prop :=
  ∀ (s : State) (w : Word) (rest : List Event), s.script = .writeReg 0 w :: rest →
    (s.busy = false → s.err = false ∨ w = 0x00000010#32 ∨ w = 0x00000011#32 →
      (w = 0x00000001#32 → step s = .next { s with
        script := rest, opc := w, busy := true, done := false, olen := 0, slen := 0, nsym := 0, bitlen := 0, pad := 0,
        rootfreq := 0, clen := 0 }) ∧
      (w = 0x00000002#32 → step s = .next { s with
        script := rest, opc := w, busy := true, done := false, olen := 0, slen := 0, nsym := 0, bitlen := 0, pad := 0,
        rootfreq := 0 }) ∧
      (w ≠ 0x00000001#32 → w ≠ 0x00000002#32 → step s = .next { s with
        script := rest, opc := w, busy := true, done := false })) ∧
    (s.busy = false → s.err = true → w ≠ 0x00000010#32 → w ≠ 0x00000011#32 →
      step s = .next { s with script := rest }) ∧
    (s.busy = true → step s = .next { s with script := rest })

/-! ### Invariants and whole-machine rules -/

/-- Every step of either agent keeps the invariant, from every state that meets it. -/
def Obligations.StepKeepsInvariant : Prop := ∀ s t : State, Inv s → step s = .next t → Inv t

/-- R13: every step keeps the legal combinations of the flags. -/
def Obligations.StepKeepsFlagsLegal : Prop := ∀ s t : State, FlagsLegal s → step s = .next t → FlagsLegal t

/-- R14, R170, R172: every step keeps `ERRCODE = 0` exactly when `ERR = 0`, `ERRCODE` at most 6 and never 2. -/
def Obligations.StepKeepsErrcodeLegal : Prop := ∀ s t : State, ErrcodeLegal s → step s = .next t → ErrcodeLegal t

/-- Every step keeps the buffers in canonical form and inside their capacities. -/
def Obligations.StepKeepsBuffersLegal : Prop := ∀ s t : State, BuffersLegal s → step s = .next t → BuffersLegal t

/-- R17, R179: a failed `COMPRESS` or `DECOMPRESS` delivers nothing: the result registers are 0 (and `CLEN`, for `COMPRESS`), and
no byte of `OBUF` (and of `CBUF`, for `COMPRESS`) is specified; `IBUF` and `ILEN` are intact. -/
def Obligations.FailedWorkDeliversNothing : Prop :=
  ∀ (s t : State) (i : Instr), Inv s → s.busy = true → s.opc = encode i → i = .compress ∨ i = .decompress →
    exec i s = .next t → t.err = true →
    t.resultsZero ∧ (∀ off, t.obuf.known off = none) ∧ t.ibuf = s.ibuf ∧ t.ilen = s.ilen ∧
    (i = .compress → t.clen = 0 ∧ ∀ off, t.cbuf.known off = none) ∧
    (i = .decompress → t.clen = s.clen ∧ t.cbuf = s.cbuf)

/-- R180, R181: the error state is sticky. `ERR` falls only when the engine executes `CLRERR` or `CLEAR`, or on reset; and from a
state with legal flags `ERRCODE` keeps its value for as long as `ERR` stays 1. -/
def Obligations.ErrorIsSticky : Prop :=
  ∀ s t : State, step s = .next t → s.err = true →
    (t.err = true ∨ (∃ rest, s.script = .hardReset :: rest) ∨
      (s.busy = true ∧ (s.opc = encode .clrerr ∨ s.opc = encode .clear) ∧
        (s.script = [] ∨ ∃ rest, s.script = .engine :: rest))) ∧
    (FlagsLegal s → t.err = true → t.errcode = s.errcode)

/-- R24: no step changes a byte of `IBUF` but a host write of that byte while the block is idle, or a reset. -/
def Obligations.OnlyHostWritesInput : Prop :=
  ∀ (s t : State) (off : Nat), step s = .next t → t.byte .ibuf off ≠ s.byte .ibuf off →
    (∃ rest, s.script = .hardReset :: rest) ∨
    (s.busy = false ∧ off < Config.hw.inCap ∧ ∃ rest, s.script = .writeBuf .ibuf off (t.byte .ibuf off) :: rest)

/-- R25: no step changes a byte of `OBUF` but the engine's execution of `COMPRESS` or `DECOMPRESS`, or a reset. -/
def Obligations.OnlyWorkCommandsWriteOutput : Prop :=
  ∀ (s t : State) (off : Nat), step s = .next t → t.byte .obuf off ≠ s.byte .obuf off →
    (∃ rest, s.script = .hardReset :: rest) ∨
    (s.busy = true ∧ (s.opc = encode .compress ∨ s.opc = encode .decompress) ∧
      (s.script = [] ∨ ∃ rest, s.script = .engine :: rest))

/-- R15: no step changes `ILEN` but a host write of register 3 while the block is idle, the execution of `CLEAR`, or a reset. -/
def Obligations.OnlyHostOrClearWritesIlen : Prop :=
  ∀ s t : State, step s = .next t → t.ilen ≠ s.ilen →
    (∃ rest, s.script = .hardReset :: rest) ∨
    (s.busy = false ∧ ∃ rest, s.script = .writeReg 3 t.ilen :: rest) ∨
    (s.busy = true ∧ s.opc = encode .clear ∧ (s.script = [] ∨ ∃ rest, s.script = .engine :: rest))

/-! ### Bits and bytes, input conditioning, frequencies -/

/-- R44: `BitsToBytes` and `BytesToBits` are inverse, and a byte's bits are its binary digits, most significant first. -/
def Obligations.BitsBytesInverse : Prop :=
  (∀ B : BitString, B.length % 8 = 0 → bytesToBits (bitsToBytes B) = B) ∧
  (∀ Y : Bytes, bitsToBytes (bytesToBits Y) = Y) ∧
  (∀ (Y : Bytes) (k j : Nat) (y : Byte), Y[k]? = some y → j < 8 →
    (bytesToBits Y)[8 * k + j]? = some (decide (y.toNat / 2 ^ (7 - j) % 2 = 1)))

/-- R80: `Trim` removes exactly the longest suffix of `WS` bytes, for every parameter set. -/
def Obligations.TrimRemovesWhitespaceSuffix : Prop :=
  ∀ (P : Params) (X : Bytes), (∃ w, X = trim P X ++ w ∧ ∀ x ∈ w, x ∈ P.ws) ∧
    (∀ x, (trim P X).getLast? = some x → x ∉ P.ws) ∧ trim P (trim P X) = trim P X

/-- R82, R83: `Analyze` counts occurrences; the counts sum to the length; `N` is the number of distinct Symbols, at least 1 and
at most 256 and the length; an empty sequence is `EmptyInputError`. -/
def Obligations.AnalyzeCounts : Prop :=
  analyze [] = .error .emptyInput ∧
  ∀ S : Bytes, S ≠ [] → ∃ ft n, analyze S = .ok (ft, n) ∧ (∀ x, ft x = S.count x) ∧
    (allSymbols.map ft).sum = S.length ∧ n = S.dedup.length ∧ 1 ≤ n ∧ n ≤ 256 ∧ n ≤ S.length

/-- R83, R92: the frequency table, and so the tree, depends only on the multiset of the Symbols, not on their order. -/
def Obligations.TreeIgnoresInputOrder : Prop :=
  ∀ S S' : Bytes, S.Perm S' → analyze S = analyze S' ∧ build (countSymbols S) = build (countSymbols S')

/-! ### Tree and codes -/

/-- R92: `ExtractMin` removes the node with the least key (frequency, index). -/
def Obligations.ExtractMinTakesLeast : Prop :=
  ∀ pq : Queue, (pq ≠ [] → ∃ m rest, extractMin pq = some (m, rest)) ∧
    ∀ m rest, extractMin pq = some (m, rest) → (m :: rest).Perm pq ∧
      (∀ x ∈ rest, m.freq < x.freq ∨ m.freq = x.freq ∧ m.index ≤ x.index)

/-- R93, R94, R95, R96 (items 1 to 4 and 6): the tree `Build` makes of a text: one leaf per distinct Symbol with its count, N - 1
internal nodes in slots 256 upwards, sums, children older than parents, the left child's key below the right child's, the
root's frequency the text's length, and its index. -/
def Obligations.BuildTreeShape : Prop :=
  ∀ S : Bytes, S ≠ [] → ∃ root, build (countSymbols S) = some root ∧ root.freq = S.length ∧
    root.symbols.Perm S.dedup ∧ root.leavesCount (countSymbols S) ∧ root.sumsOk ∧ root.childrenOlder ∧ root.childrenOrdered ∧
    (root.slots.map Prod.fst).Perm (List.range' 256 (S.dedup.length - 1)) ∧ root.depth ≤ S.dedup.length - 1 ∧
    (S.dedup.length = 1 → ∃ x, root = .leaf x S.length) ∧
    (2 ≤ S.dedup.length → root.index = 256 + S.dedup.length - 2)

/-- R96 item 5: the frequencies of internal nodes do not fall in creation order. -/
def Obligations.InternalFrequenciesRise : Prop :=
  ∀ (S : Bytes) (root : HuffNode), build (countSymbols S) = some root →
    ∀ a ∈ root.slots, ∀ b ∈ root.slots, a.1 < b.1 → a.2.1 ≤ b.2.1

/-- R103, R104 items 1, 2 and 4: for a tree whose leaves are distinct, the two tables are mutually inverse, the reverse table
lists the leaves left to right, every code has at least one bit and at most the tree's depth (one bit for a single leaf). -/
def Obligations.TablesMutuallyInverse : Prop :=
  ∀ root : HuffNode, root.symbols.Nodup →
    (genCodes root).rct.map Prod.snd = root.symbols ∧
    (∀ c s, (c, s) ∈ (genCodes root).rct ↔ (genCodes root).ct s = c ∧ c ≠ []) ∧
    (∀ s, (genCodes root).ct s ≠ [] ↔ s ∈ root.symbols) ∧
    (∀ e ∈ (genCodes root).rct, 1 ≤ e.1.length ∧ e.1.length ≤ max 1 root.depth)

/-- R104 items 3 and 6: the codes are prefix-free, and in list order they ascend lexicographically. -/
def Obligations.CodesPrefixFreeAndAscending : Prop :=
  ∀ root : HuffNode, (genCodes root).rct.codesApart = true ∧ (genCodes root).rct.Pairwise fun e f => e.1 < f.1

/-- R104 item 5: with two leaves or more, every bit sequence as long as the tree is deep begins with a code; with one leaf, no code
begins with bit 1. -/
def Obligations.CodeSetComplete : Prop :=
  (∀ (i f : Nat) (l r : HuffNode) (P : BitString), (HuffNode.internal i f l r).depth ≤ P.length →
    ∃ e ∈ (genCodes (.internal i f l r)).rct, e.1 <+: P) ∧
  ∀ (x : Byte) (f : Nat), (genCodes (.leaf x f)).rct = [([false], x)]

/-! ### Packer, serializer, loader, unpacker -/

/-- R110, R111, R116: the outcome of `Pack`, for every table: a Symbol without a code first, then the capacity, else success. -/
def Obligations.PackOutcome : Prop :=
  ∀ (P : Params) (S : Bytes) (ct : CodeTable),
    ((∃ x ∈ S, ct x = []) → pack P S ct = .error .unencodableSymbol) ∧
    ((∀ x ∈ S, ct x ≠ []) → P.outCap < (S.flatMap ct).length / 8 + 2 → pack P S ct = .error .capacity) ∧
    ((∀ x ∈ S, ct x ≠ []) → (S.flatMap ct).length / 8 + 2 ≤ P.outCap → ∃ pk, pack P S ct = .ok pk)

/-- R63, R112 to R115: the stream `Pack` makes, bit for bit: header, codes in input order, padding. -/
def Obligations.PackStreamFormat : Prop :=
  ∀ (P : Params) (S : Bytes) (ct : CodeTable) (pk : Packed), pack P S ct = .ok pk →
    pk.bitLen = (S.flatMap ct).length ∧ pk.pad = 8 - (S.flatMap ct).length % 8 ∧ 1 ≤ pk.pad ∧ pk.pad ≤ 8 ∧
    pk.stream.length = (S.flatMap ct).length / 8 + 2 ∧ pk.stream.head? = some (BitVec.ofNat 8 pk.pad) ∧
    bytesToBits pk.stream = byteBits (BitVec.ofNat 8 pk.pad) ++ S.flatMap ct ++ List.replicate pk.pad false

/-- R69, R135: loading what was serialized gives the table back, as an ordered list; an empty table has no artifact the loader
accepts (R131). -/
def Obligations.LoadSerialized : Prop :=
  (∀ t : RevTable, t ≠ [] → t.wf = true → cbLoad (cbSer t) = .ok t) ∧ cbLoad (cbSer []) = .error .codebookFormat

/-- R130 to R135, R66: the loader accepts nothing but the rendering of a well-formed table of 1 to 256 entries, and its only error
is `CodebookFormatError`. -/
def Obligations.LoaderAcceptsOnlyArtifacts : Prop :=
  ∀ T : Bytes, (∀ t, cbLoad T = .ok t → cbSer t = T ∧ t.wf = true ∧ t ≠ [] ∧ t.length ≤ 256) ∧
    ∀ e, cbLoad T = .error e → e = .codebookFormat

/-- R140 to R144, R146, R148: the outcome of `Unpack`, for every stream and table: no header, a header outside 1..8, no bits to
remove the padding from; then, on the walk over the bits without the last `p`, a candidate left over, too many Symbols,
or success. -/
def Obligations.UnpackOutcome : Prop :=
  ∀ (P : Params) (t : RevTable), unpack P [] t = .error .corruptStream ∧
    (∀ (p : Byte) (rest : Bytes), headerWf p = false → unpack P (p :: rest) t = .error .corruptStream) ∧
    (∀ p : Byte, unpack P [p] t = .error .corruptStream) ∧
    ∀ (p : Byte) (rest : Bytes), headerWf p = true → rest ≠ [] →
      let n := 8 * rest.length - p.toNat
      let r := walk t ((bytesToBits rest).take n) [] []
      (r.2 ≠ [] → unpack P (p :: rest) t = .error .corruptStream) ∧
      (r.2 = [] → P.outCap < r.1.length → unpack P (p :: rest) t = .error .capacity) ∧
      (r.2 = [] → r.1.length ≤ P.outCap → unpack P (p :: rest) t = .ok { out := r.1, bitLen := n, pad := p.toNat })

/-- R145, R147 item 2: the walk takes the shortest match. An entry whose code has another entry's code as a proper initial part
never has its Symbol emitted. -/
def Obligations.LongerMatchNeverEmitted : Prop :=
  ∀ (t : RevTable) (e f : Entry) (P : BitString), t.wf = true → e ∈ t → f ∈ t → e ≠ f → f.1 <+: e.1 →
    e.2 ∉ (walk t P [] []).1

/-- R145, R147 items 1 and 3: for every well-formed table and all bits, the walk cuts the bits into codes of the table, whose Symbols
it emits in order, and a leftover candidate that begins with no code. On a concatenation of codes of a prefix-free table it
emits exactly those entries' Symbols and leaves no candidate. -/
def Obligations.WalkDecodesConcatenation : Prop :=
  (∀ (t : RevTable) (P : BitString), t.wf = true → ∃ es : List Entry, (∀ e ∈ es, e ∈ t) ∧
    P = es.flatMap Prod.fst ++ (walk t P [] []).2 ∧ (walk t P [] []).1 = es.map Prod.snd ∧
    ∀ e ∈ t, ¬ e.1 <+: (walk t P [] []).2) ∧
  ∀ (t : RevTable) (es : List Entry), t.wf = true → t.codesApart = true → (∀ e ∈ es, e ∈ t) →
    walk t (es.flatMap Prod.fst) [] [] = (es.map Prod.snd, [])

/-- R147 item 1, R2: `Unpack(Pack(S, CT), RCT) = S` for the tables made from `S`. -/
def Obligations.UnpackPackRoundTrip : Prop :=
  ∀ (P : Params) (S : Bytes) (root : HuffNode) (pk : Packed), build (countSymbols S) = some root →
    pack P S (genCodes root).ct = .ok pk → S.length ≤ P.outCap →
    unpack P pk.stream (genCodes root).rct = .ok { out := S, bitLen := pk.bitLen, pad := pk.pad }

/-- R148: where `OUT_CAP` is at least 8 × `IN_CAP`, `Unpack` of a stream that fits `IBUF` never raises `CapacityError`. -/
def Obligations.UnpackNeverOverflows : Prop :=
  ∀ (P : Params) (E : Bytes) (t : RevTable), 8 * P.inCap ≤ P.outCap → E.length ≤ P.inCap →
    unpack P E t ≠ .error .capacity
end

