-- ==== Sys2Proof/Laws/Memory.lean ====
section
/-! SUPPORT. The laws of a buffer: what each operation makes of every byte, and that each keeps the canonical form. -/

namespace Sys2Proof.Machine

theorem lookupCell_insertCell (cs : List Host.Cell) (off o : Nat) (v : Byte) :
    lookupCell (insertCell cs off v) o = if o = off then some v else lookupCell cs o := by
  induction cs with
  | nil => simp [insertCell, lookupCell]
  | cons c cs ih =>
    obtain ⟨a, u⟩ := c
    by_cases h1 : off < a
    · simp [insertCell, lookupCell, h1]
    · by_cases h2 : off = a
      · subst h2
        simp only [insertCell, lookupCell, lt_irrefl, if_false, if_true]
        split <;> rfl
      · simp only [insertCell, lookupCell, h1, h2, if_false, ih]
        by_cases h3 : o = a
        · have : o ≠ off := by omega
          simp [h3, Ne.symm h2]
        · simp [h3]

/-- A write changes the one byte it names. -/
theorem Memory.known_write (m : Memory) (off o : Nat) (v : Byte) :
    (m.write off v).known o = if o = off then some v else m.known o := lookupCell_insertCell _ _ _ _

@[simp] theorem Memory.write_gen (m : Memory) (off : Nat) (v : Byte) : (m.write off v).gen = m.gen := rfl
@[simp] theorem Memory.forget_gen (m : Memory) : m.forget.gen = m.gen + 1 := rfl
@[simp] theorem Memory.forget_cells (m : Memory) : m.forget.cells = [] := rfl
@[simp] theorem Memory.known_forget (m : Memory) (o : Nat) : m.forget.known o = none := rfl

theorem mem_insertCell {cs : List Host.Cell} {off : Nat} {v : Byte} {c : Host.Cell}
    (h : c ∈ insertCell cs off v) : c = (off, v) ∨ c ∈ cs := by
  induction cs with
  | nil => simpa [insertCell] using h
  | cons d cs ih =>
    obtain ⟨a, u⟩ := d
    simp only [insertCell] at h
    split at h
    · simpa using h
    · split at h
      · rcases List.mem_cons.1 h with h | h
        · exact .inl h
        · exact .inr (List.mem_cons_of_mem _ h)
      · rcases List.mem_cons.1 h with h | h
        · exact .inr (h ▸ List.mem_cons_self)
        · exact (ih h).imp id (List.mem_cons_of_mem _)

theorem risingCells_insertCell (cs : List Host.Cell) (off : Nat) (v : Byte) (h : risingCells cs = true) :
    risingCells (insertCell cs off v) = true := by
  simp only [risingCells, decide_eq_true_eq] at *
  induction cs with
  | nil => simp [insertCell]
  | cons d cs ih =>
    obtain ⟨a, u⟩ := d
    obtain ⟨h1, h2⟩ := List.pairwise_cons.1 h
    simp only [insertCell]
    split
    · next hlt =>
      refine List.pairwise_cons.2 ⟨fun c hc => ?_, h⟩
      rcases List.mem_cons.1 hc with rfl | hc
      · exact hlt
      · exact lt_trans hlt (h1 c hc)
    · split
      · next heq => exact List.pairwise_cons.2 ⟨fun c hc => heq ▸ h1 c hc, h2⟩
      · next hlt hne =>
        refine List.pairwise_cons.2 ⟨fun c hc => ?_, ih h2⟩
        rcases mem_insertCell hc with rfl | hc
        · simp only; omega
        · exact h1 c hc

/-- A write keeps the canonical form. -/
theorem Memory.wf_write (m : Memory) (off : Nat) (v : Byte) (h : m.wf = true) : (m.write off v).wf = true :=
  risingCells_insertCell _ _ _ h

/-- A forgotten buffer is in canonical form. -/
@[simp] theorem Memory.wf_forget (m : Memory) : m.forget.wf = true := rfl

theorem Memory.known_writeBytes (m : Memory) (off : Nat) (vs : Bytes) (o : Nat) :
    (m.writeBytes off vs).known o =
      if off ≤ o ∧ o < off + vs.length then vs[o - off]? else m.known o := by
  induction vs generalizing off with
  | nil => rw [if_neg (by simp only [List.length_nil]; omega)]; rfl
  | cons v vs ih =>
    simp only [Memory.writeBytes, Memory.known_write, ih, List.length_cons]
    by_cases h1 : o = off
    · subst h1; simp
    · rw [if_neg h1]
      by_cases h2 : off + 1 ≤ o ∧ o < off + 1 + vs.length
      · rw [if_pos h2, if_pos (by omega), show o - off = (o - (off + 1)) + 1 by omega, List.getElem?_cons_succ]
      · rw [if_neg h2, if_neg (by omega)]

@[simp] theorem Memory.writeBytes_gen (m : Memory) (off : Nat) (vs : Bytes) : (m.writeBytes off vs).gen = m.gen := by
  induction vs generalizing off with
  | nil => rfl
  | cons v vs ih => simpa [Memory.writeBytes] using ih (off + 1)

theorem Memory.wf_writeBytes (m : Memory) (off : Nat) (vs : Bytes) (h : m.wf = true) :
    (m.writeBytes off vs).wf = true := by
  induction vs generalizing off with
  | nil => exact h
  | cons v vs ih => exact Memory.wf_write _ _ _ (ih (off + 1))

/-- What a delivered buffer holds: the sequence from offset 0, nothing specified above it. -/
theorem Memory.known_deliver (m : Memory) (vs : Bytes) (o : Nat) : (m.deliver vs).known o = vs[o]? := by
  rw [Memory.deliver, Memory.known_writeBytes]
  by_cases h : o < vs.length
  · rw [if_pos (by omega)]; simp
  · rw [if_neg (by omega), Memory.known_forget, List.getElem?_eq_none (by omega)]

/-- A delivered buffer is in canonical form. -/
theorem Memory.wf_deliver (m : Memory) (vs : Bytes) : (m.deliver vs).wf = true :=
  Memory.wf_writeBytes _ _ _ (Memory.wf_forget m)

theorem lookupCell_mem {cs : List Host.Cell} {o : Nat} {v : Byte} (h : lookupCell cs o = some v) : (o, v) ∈ cs := by
  induction cs with
  | nil => simp [lookupCell] at h
  | cons c cs ih =>
    obtain ⟨a, u⟩ := c
    simp only [lookupCell] at h
    split at h
    · next he => simp_all
    · exact List.mem_cons_of_mem _ (ih h)

/-- `MemRead` has the length asked for. -/
@[simp] theorem State.memRead_length (s : State) (b : Buf) (off n : Nat) : (s.memRead b off n).length = n := by
  simp [State.memRead]

theorem State.memRead_getElem? (s : State) (b : Buf) (off n i : Nat) :
    (s.memRead b off n)[i]? = if i < n then some (s.byte b (off + i)) else none := by
  simp only [State.memRead, List.getElem?_map]
  by_cases h : i < n
  · simp [h]
  · simp [h]

/-- Two reads that agree byte by byte are equal. -/
theorem State.memRead_congr {s t : State} {b : Buf} {off n : Nat}
    (h : ∀ i, i < n → s.byte b (off + i) = t.byte b (off + i)) : s.memRead b off n = t.memRead b off n := by
  refine List.map_congr_left fun i hi => h i (List.mem_range.1 hi)

/-- The part of a delivered buffer that holds the sequence reads back as the sequence. -/
theorem State.memRead_of_known (s : State) (b : Buf) (vs : Bytes)
    (h : ∀ o, o < vs.length → (s.mem b).known o = vs[o]?) : s.memRead b 0 vs.length = vs := by
  refine List.ext_getElem? fun i => ?_
  rw [State.memRead_getElem?]
  by_cases hi : i < vs.length
  · simp [hi, State.byte, h i hi]
  · rw [if_neg hi, List.getElem?_eq_none (by omega)]

end Sys2Proof.Machine
end

