-- ==== Sys2Proof/Laws/Bits.lean ====
section
/-! SUPPORT. Bits within bytes: lengths, one byte at a time, and an induction that takes eight bits at once. -/

namespace Sys2Proof.Machine

@[simp] theorem byteBits_length (y : Byte) : (byteBits y).length = 8 := rfl

theorem bytesToBits_cons (y : Byte) (ys : Bytes) : bytesToBits (y :: ys) = byteBits y ++ bytesToBits ys := rfl

@[simp] theorem bytesToBits_length (ys : Bytes) : (bytesToBits ys).length = 8 * ys.length := by
  induction ys with
  | nil => rfl
  | cons y ys ih => rw [bytesToBits_cons, List.length_append, ih, byteBits_length, List.length_cons]; omega

theorem byteBits_ofBits : ∀ b7 b6 b5 b4 b3 b2 b1 b0 : Bool,
    byteBits (BitVec.ofNat 8 (bitsValue [b7, b6, b5, b4, b3, b2, b1, b0])) = [b7, b6, b5, b4, b3, b2, b1, b0] := by
  decide

theorem ofBits_byteBits : ∀ y : Byte, BitVec.ofNat 8 (bitsValue (byteBits y)) = y := by decide +kernel

theorem bitsToBytes_eight (b7 b6 b5 b4 b3 b2 b1 b0 : Bool) (r : BitString) :
    bitsToBytes (b7 :: b6 :: b5 :: b4 :: b3 :: b2 :: b1 :: b0 :: r) =
      BitVec.ofNat 8 (bitsValue [b7, b6, b5, b4, b3, b2, b1, b0]) :: bitsToBytes r := rfl

theorem bitsToBytes_byteBits_append (y : Byte) (r : BitString) : bitsToBytes (byteBits y ++ r) = y :: bitsToBytes r := by
  conv_rhs => rw [← ofBits_byteBits y]
  rfl

/-- Induction over a bit string of whole bytes. -/
theorem wholeBytes_induction (P : BitString → Prop) (nil : P [])
    (eight : ∀ b7 b6 b5 b4 b3 b2 b1 b0 r, P r → P (b7 :: b6 :: b5 :: b4 :: b3 :: b2 :: b1 :: b0 :: r)) :
    ∀ (n : Nat) (B : BitString), B.length = 8 * n → P B := by
  intro n
  induction n with
  | zero => intro B h; exact List.length_eq_zero_iff.1 (show B.length = 0 by omega) ▸ nil
  | succ n ih =>
    intro B h
    match B, h with
    | b7 :: b6 :: b5 :: b4 :: b3 :: b2 :: b1 :: b0 :: r, h =>
      exact eight _ _ _ _ _ _ _ _ _ (ih r (by simp only [List.length_cons] at h; omega))

end Sys2Proof.Machine
end

