-- ==== Sys2Proof/Laws/Codebook.lean ====
section
/-! SUPPORT. The codebook artifact: each production of the serializer (44_codebook_serializer.md) against the loader's parser of it
(45_codebook_loader.md), in both directions. -/

namespace Sys2Proof.Machine

/-! ### The Symbol field -/

theorem parseSymbol_symbolField : ∀ s : Byte, parseSymbol (symbolField s) = some s := by decide +kernel

theorem symbolField_length (s : Byte) : (symbolField s).length = 2 := rfl

/-- A character with a hexadecimal value is that value's digit. -/
theorem hexDigit_of_hexVal : ∀ (c : Byte), ∀ d ∈ hexVal c, hexDigit d = c ∧ d < 16 := by decide +kernel

theorem hexVal_ne_delimiters : ∀ (c : Byte), (hexVal c).isSome → c ≠ charComma ∧ c ≠ charLF := by decide +kernel

theorem hexDigit_clean : ∀ d : Fin 16, hexDigit d ≠ charComma ∧ hexDigit d ≠ charLF := by decide

theorem symbolField_clean (s : Byte) (c : Byte) (h : c ∈ symbolField s) : c ≠ charComma ∧ c ≠ charLF := by
  have hs : s.toNat < 256 := s.isLt
  simp only [symbolField, List.mem_cons, List.not_mem_nil, or_false] at h
  rcases h with rfl | rfl
  · exact hexDigit_clean ⟨s.toNat / 16, by omega⟩
  · exact hexDigit_clean ⟨s.toNat % 16, by omega⟩

theorem symbolField_of_parseSymbol {f : Bytes} {s : Byte} (h : parseSymbol f = some s) : symbolField s = f := by
  match f, h with
  | [hi, lo], h =>
    simp only [parseSymbol] at h
    split at h
    · next a b ha hb =>
      obtain ⟨ha', ha16⟩ := hexDigit_of_hexVal hi a ha
      obtain ⟨hb', hb16⟩ := hexDigit_of_hexVal lo b hb
      simp only [Option.some.injEq] at h
      subst h
      have hn : (BitVec.ofNat 8 (16 * a + b)).toNat = 16 * a + b := by rw [BitVec.toNat_ofNat]; omega
      rw [symbolField, hn, show (16 * a + b) / 16 = a by omega, show (16 * a + b) % 16 = b by omega, ha', hb']
    · simp at h
  | [], h => simp [parseSymbol] at h
  | [_], h => simp [parseSymbol] at h
  | _ :: _ :: _ :: _, h => simp [parseSymbol] at h

/-! ### The code field -/

@[simp] theorem codeField_length (c : BitString) : (codeField c).length = c.length := by simp [codeField]

theorem codeField_clean (c : BitString) : ∀ x ∈ codeField c, x ≠ charLF := by
  intro x hx
  obtain ⟨b, -, rfl⟩ := List.mem_map.1 hx
  cases b <;> decide

theorem parseBits_codeField (c : BitString) : parseBits (codeField c) = some c := by
  induction c with
  | nil => rfl
  | cons b c ih =>
    rw [codeField, List.map_cons, ← codeField]
    cases b <;> simp [parseBits, ih]

theorem codeField_of_parseBits {f : Bytes} {c : BitString} (h : parseBits f = some c) : codeField c = f := by
  induction f generalizing c with
  | nil => simp only [parseBits, Option.some.injEq] at h; subst h; rfl
  | cons x f ih =>
    simp only [parseBits] at h
    split at h
    · next hx =>
      obtain ⟨c', hc, rfl⟩ := Option.map_eq_some_iff.1 h
      rw [codeField, List.map_cons, ← codeField, ih hc, hx]; rfl
    · split at h
      · next hx =>
        obtain ⟨c', hc, rfl⟩ := Option.map_eq_some_iff.1 h
        rw [codeField, List.map_cons, ← codeField, ih hc, hx]; rfl
      · simp at h

theorem parseCode_codeField {c : BitString} (h : codeWf c = true) : parseCode (codeField c) = some c := by
  simp only [codeWf, Bool.and_eq_true, decide_eq_true_eq] at h
  rw [parseCode, if_neg (by rw [codeField_length]; omega), parseBits_codeField]

theorem codeField_of_parseCode {f : Bytes} {c : BitString} (h : parseCode f = some c) :
    codeField c = f ∧ codeWf c = true := by
  rw [parseCode] at h
  split at h
  · simp at h
  · next hl =>
    have := codeField_of_parseBits h
    refine ⟨this, ?_⟩
    have hlen := congrArg List.length this
    rw [codeField_length] at hlen
    simp only [codeWf, Bool.and_eq_true, decide_eq_true_eq]
    omega

/-! ### One line -/

theorem splitComma_append {l r : Bytes} (h : ∀ c ∈ l, c ≠ charComma) : splitComma (l ++ charComma :: r) = some (l, r) := by
  induction l with
  | nil => simp [splitComma]
  | cons x l ih =>
    rw [List.cons_append, splitComma, if_neg (h x List.mem_cons_self), ih fun c hc => h c (List.mem_cons_of_mem _ hc)]
    rfl

theorem of_splitComma {ln l r : Bytes} (h : splitComma ln = some (l, r)) : ln = l ++ charComma :: r := by
  induction ln generalizing l r with
  | nil => simp [splitComma] at h
  | cons x ln ih =>
    simp only [splitComma] at h
    split at h
    · next hx => simp only [Option.some.injEq, Prod.mk.injEq] at h; rw [← h.1, ← h.2, hx]; rfl
    · obtain ⟨⟨l', r'⟩, hs, he⟩ := Option.map_eq_some_iff.1 h
      simp only [Prod.mk.injEq] at he
      rw [← he.1, ← he.2, ih hs]; rfl

/-- The parser inverts the rendering of a line. -/
theorem parseLine_lineBody {e : Entry} (h : codeWf e.1 = true) : parseLine (lineBody e) = some e := by
  rw [parseLine, lineBody, splitComma_append fun c hc => (symbolField_clean _ c hc).1]
  simp only [parseSymbol_symbolField, parseCode_codeField h]

/-- A line the parser accepts is the rendering of the entry it gives, whose code is well formed. -/
theorem lineBody_of_parseLine {ln : Bytes} {e : Entry} (h : parseLine ln = some e) :
    lineBody e = ln ∧ codeWf e.1 = true := by
  rw [parseLine] at h
  split at h
  · simp at h
  · next symf codef hs =>
    split at h
    · next s c hsym hcode =>
      simp only [Option.some.injEq] at h
      subst h
      obtain ⟨hc1, hc2⟩ := codeField_of_parseCode hcode
      exact ⟨by rw [lineBody, symbolField_of_parseSymbol hsym, hc1, ← of_splitComma hs], hc2⟩
    · simp at h

theorem lineBody_no_LF (e : Entry) : ∀ x ∈ lineBody e, x ≠ charLF := by
  intro x hx
  rw [lineBody, List.mem_append, List.mem_cons] at hx
  rcases hx with hx | rfl | hx
  · exact (symbolField_clean _ x hx).2
  · decide
  · exact codeField_clean _ x hx

/-! ### Splitting at line terminators -/

theorem splitLF_ne_nil (U : Bytes) : splitLF U ≠ [] := by
  cases U with
  | nil => simp [splitLF]
  | cons x U => simp only [splitLF]; split <;> (try split) <;> simp

theorem splitLF_of_clean {l : Bytes} (h : ∀ x ∈ l, x ≠ charLF) : splitLF l = [l] := by
  induction l with
  | nil => rfl
  | cons x l ih =>
    rw [splitLF, if_neg (h x List.mem_cons_self), ih fun y hy => h y (List.mem_cons_of_mem _ hy)]

theorem splitLF_clean_append {l U : Bytes} (h : ∀ x ∈ l, x ≠ charLF) : splitLF (l ++ charLF :: U) = l :: splitLF U := by
  induction l with
  | nil => simp [splitLF]
  | cons x l ih =>
    rw [List.cons_append, splitLF, if_neg (h x List.mem_cons_self), ih fun y hy => h y (List.mem_cons_of_mem _ hy)]

/-- Putting the terminators back gives the text that was split, with a terminator after it. -/
theorem flatMap_splitLF (U : Bytes) : (splitLF U).flatMap (· ++ [charLF]) = U ++ [charLF] := by
  induction U with
  | nil => rfl
  | cons x U ih =>
    rw [splitLF]
    split
    · next hx => rw [List.flatMap_cons, ih, hx]; rfl
    · split
      · next hs => exact absurd hs (splitLF_ne_nil U)
      · next l ls hs =>
        rw [hs] at ih
        simp only [List.flatMap_cons, List.cons_append] at ih ⊢
        rw [ih]

/-! ### Loading lines -/

/-- The loader has one error. -/
theorem loadLines_error {lns : List Bytes} {t : RevTable} {e : ErrorKind} (h : loadLines lns t = .error e) :
    e = .codebookFormat := by
  induction lns generalizing t with
  | nil => simp [loadLines] at h
  | cons ln lns ih =>
    rw [loadLines] at h
    split at h
    · simpa using h.symm
    · split at h
      · simpa using h.symm
      · exact ih h

theorem cbLoad_error {T : Bytes} {e : ErrorKind} (h : cbLoad T = .error e) : e = .codebookFormat := by
  rw [cbLoad] at h
  split at h
  · simpa using h.symm
  · split at h
    · exact loadLines_error h
    · simpa using h.symm

end Sys2Proof.Machine
end

