-- ==== Sys2Proof/Laws/State.lean ====
section
/-! SUPPORT. One lemma per field per update of a state, true by computation, so that no later proof unfolds a record update. -/

namespace Sys2Proof.Machine.State

/-! ### `flagsAccept` -/

@[simp] theorem flagsAccept_busy (s : State) : (s.flagsAccept).busy = true := rfl
@[simp] theorem flagsAccept_done (s : State) : (s.flagsAccept).done = false := rfl
@[simp] theorem flagsAccept_err (s : State) : (s.flagsAccept).err = s.err := rfl
@[simp] theorem flagsAccept_errcode (s : State) : (s.flagsAccept).errcode = s.errcode := rfl
@[simp] theorem flagsAccept_ilen (s : State) : (s.flagsAccept).ilen = s.ilen := rfl
@[simp] theorem flagsAccept_clen (s : State) : (s.flagsAccept).clen = s.clen := rfl
@[simp] theorem flagsAccept_olen (s : State) : (s.flagsAccept).olen = s.olen := rfl
@[simp] theorem flagsAccept_slen (s : State) : (s.flagsAccept).slen = s.slen := rfl
@[simp] theorem flagsAccept_nsym (s : State) : (s.flagsAccept).nsym = s.nsym := rfl
@[simp] theorem flagsAccept_bitlen (s : State) : (s.flagsAccept).bitlen = s.bitlen := rfl
@[simp] theorem flagsAccept_pad (s : State) : (s.flagsAccept).pad = s.pad := rfl
@[simp] theorem flagsAccept_rootfreq (s : State) : (s.flagsAccept).rootfreq = s.rootfreq := rfl
@[simp] theorem flagsAccept_opc (s : State) : (s.flagsAccept).opc = s.opc := rfl
@[simp] theorem flagsAccept_ibuf (s : State) : (s.flagsAccept).ibuf = s.ibuf := rfl
@[simp] theorem flagsAccept_obuf (s : State) : (s.flagsAccept).obuf = s.obuf := rfl
@[simp] theorem flagsAccept_cbuf (s : State) : (s.flagsAccept).cbuf = s.cbuf := rfl
@[simp] theorem flagsAccept_script (s : State) : (s.flagsAccept).script = s.script := rfl
@[simp] theorem flagsAccept_answers (s : State) : (s.flagsAccept).answers = s.answers := rfl

/-! ### `complete` -/

@[simp] theorem complete_busy (s : State) : (s.complete).busy = false := rfl
@[simp] theorem complete_done (s : State) : (s.complete).done = true := rfl
@[simp] theorem complete_err (s : State) : (s.complete).err = s.err := rfl
@[simp] theorem complete_errcode (s : State) : (s.complete).errcode = s.errcode := rfl
@[simp] theorem complete_ilen (s : State) : (s.complete).ilen = s.ilen := rfl
@[simp] theorem complete_clen (s : State) : (s.complete).clen = s.clen := rfl
@[simp] theorem complete_olen (s : State) : (s.complete).olen = s.olen := rfl
@[simp] theorem complete_slen (s : State) : (s.complete).slen = s.slen := rfl
@[simp] theorem complete_nsym (s : State) : (s.complete).nsym = s.nsym := rfl
@[simp] theorem complete_bitlen (s : State) : (s.complete).bitlen = s.bitlen := rfl
@[simp] theorem complete_pad (s : State) : (s.complete).pad = s.pad := rfl
@[simp] theorem complete_rootfreq (s : State) : (s.complete).rootfreq = s.rootfreq := rfl
@[simp] theorem complete_opc (s : State) : (s.complete).opc = s.opc := rfl
@[simp] theorem complete_ibuf (s : State) : (s.complete).ibuf = s.ibuf := rfl
@[simp] theorem complete_obuf (s : State) : (s.complete).obuf = s.obuf := rfl
@[simp] theorem complete_cbuf (s : State) : (s.complete).cbuf = s.cbuf := rfl
@[simp] theorem complete_script (s : State) : (s.complete).script = s.script := rfl
@[simp] theorem complete_answers (s : State) : (s.complete).answers = s.answers := rfl

/-! ### `flagsError` -/

@[simp] theorem flagsError_busy (s : State) (e : ErrorKind) : (s.flagsError e).busy = false := rfl
@[simp] theorem flagsError_done (s : State) (e : ErrorKind) : (s.flagsError e).done = false := rfl
@[simp] theorem flagsError_err (s : State) (e : ErrorKind) : (s.flagsError e).err = true := rfl
@[simp] theorem flagsError_errcode (s : State) (e : ErrorKind) : (s.flagsError e).errcode = e.code := rfl
@[simp] theorem flagsError_ilen (s : State) (e : ErrorKind) : (s.flagsError e).ilen = s.ilen := rfl
@[simp] theorem flagsError_clen (s : State) (e : ErrorKind) : (s.flagsError e).clen = s.clen := rfl
@[simp] theorem flagsError_olen (s : State) (e : ErrorKind) : (s.flagsError e).olen = s.olen := rfl
@[simp] theorem flagsError_slen (s : State) (e : ErrorKind) : (s.flagsError e).slen = s.slen := rfl
@[simp] theorem flagsError_nsym (s : State) (e : ErrorKind) : (s.flagsError e).nsym = s.nsym := rfl
@[simp] theorem flagsError_bitlen (s : State) (e : ErrorKind) : (s.flagsError e).bitlen = s.bitlen := rfl
@[simp] theorem flagsError_pad (s : State) (e : ErrorKind) : (s.flagsError e).pad = s.pad := rfl
@[simp] theorem flagsError_rootfreq (s : State) (e : ErrorKind) : (s.flagsError e).rootfreq = s.rootfreq := rfl
@[simp] theorem flagsError_opc (s : State) (e : ErrorKind) : (s.flagsError e).opc = s.opc := rfl
@[simp] theorem flagsError_ibuf (s : State) (e : ErrorKind) : (s.flagsError e).ibuf = s.ibuf := rfl
@[simp] theorem flagsError_obuf (s : State) (e : ErrorKind) : (s.flagsError e).obuf = s.obuf := rfl
@[simp] theorem flagsError_cbuf (s : State) (e : ErrorKind) : (s.flagsError e).cbuf = s.cbuf := rfl
@[simp] theorem flagsError_script (s : State) (e : ErrorKind) : (s.flagsError e).script = s.script := rfl
@[simp] theorem flagsError_answers (s : State) (e : ErrorKind) : (s.flagsError e).answers = s.answers := rfl

/-! ### `acknowledge` -/

@[simp] theorem acknowledge_busy (s : State) : (s.acknowledge).busy = s.busy := rfl
@[simp] theorem acknowledge_done (s : State) : (s.acknowledge).done = s.done := rfl
@[simp] theorem acknowledge_err (s : State) : (s.acknowledge).err = false := rfl
@[simp] theorem acknowledge_errcode (s : State) : (s.acknowledge).errcode = 0 := rfl
@[simp] theorem acknowledge_ilen (s : State) : (s.acknowledge).ilen = s.ilen := rfl
@[simp] theorem acknowledge_clen (s : State) : (s.acknowledge).clen = s.clen := rfl
@[simp] theorem acknowledge_olen (s : State) : (s.acknowledge).olen = s.olen := rfl
@[simp] theorem acknowledge_slen (s : State) : (s.acknowledge).slen = s.slen := rfl
@[simp] theorem acknowledge_nsym (s : State) : (s.acknowledge).nsym = s.nsym := rfl
@[simp] theorem acknowledge_bitlen (s : State) : (s.acknowledge).bitlen = s.bitlen := rfl
@[simp] theorem acknowledge_pad (s : State) : (s.acknowledge).pad = s.pad := rfl
@[simp] theorem acknowledge_rootfreq (s : State) : (s.acknowledge).rootfreq = s.rootfreq := rfl
@[simp] theorem acknowledge_opc (s : State) : (s.acknowledge).opc = s.opc := rfl
@[simp] theorem acknowledge_ibuf (s : State) : (s.acknowledge).ibuf = s.ibuf := rfl
@[simp] theorem acknowledge_obuf (s : State) : (s.acknowledge).obuf = s.obuf := rfl
@[simp] theorem acknowledge_cbuf (s : State) : (s.acknowledge).cbuf = s.cbuf := rfl
@[simp] theorem acknowledge_script (s : State) : (s.acknowledge).script = s.script := rfl
@[simp] theorem acknowledge_answers (s : State) : (s.acknowledge).answers = s.answers := rfl

/-! ### `zeroResults` -/

@[simp] theorem zeroResults_busy (s : State) : (s.zeroResults).busy = s.busy := rfl
@[simp] theorem zeroResults_done (s : State) : (s.zeroResults).done = s.done := rfl
@[simp] theorem zeroResults_err (s : State) : (s.zeroResults).err = s.err := rfl
@[simp] theorem zeroResults_errcode (s : State) : (s.zeroResults).errcode = s.errcode := rfl
@[simp] theorem zeroResults_ilen (s : State) : (s.zeroResults).ilen = s.ilen := rfl
@[simp] theorem zeroResults_clen (s : State) : (s.zeroResults).clen = s.clen := rfl
@[simp] theorem zeroResults_olen (s : State) : (s.zeroResults).olen = 0 := rfl
@[simp] theorem zeroResults_slen (s : State) : (s.zeroResults).slen = 0 := rfl
@[simp] theorem zeroResults_nsym (s : State) : (s.zeroResults).nsym = 0 := rfl
@[simp] theorem zeroResults_bitlen (s : State) : (s.zeroResults).bitlen = 0 := rfl
@[simp] theorem zeroResults_pad (s : State) : (s.zeroResults).pad = 0 := rfl
@[simp] theorem zeroResults_rootfreq (s : State) : (s.zeroResults).rootfreq = 0 := rfl
@[simp] theorem zeroResults_opc (s : State) : (s.zeroResults).opc = s.opc := rfl
@[simp] theorem zeroResults_ibuf (s : State) : (s.zeroResults).ibuf = s.ibuf := rfl
@[simp] theorem zeroResults_obuf (s : State) : (s.zeroResults).obuf = s.obuf := rfl
@[simp] theorem zeroResults_cbuf (s : State) : (s.zeroResults).cbuf = s.cbuf := rfl
@[simp] theorem zeroResults_script (s : State) : (s.zeroResults).script = s.script := rfl
@[simp] theorem zeroResults_answers (s : State) : (s.zeroResults).answers = s.answers := rfl

/-! ### `clearRegisters` -/

@[simp] theorem clearRegisters_busy (s : State) : (s.clearRegisters).busy = false := rfl
@[simp] theorem clearRegisters_done (s : State) : (s.clearRegisters).done = false := rfl
@[simp] theorem clearRegisters_err (s : State) : (s.clearRegisters).err = false := rfl
@[simp] theorem clearRegisters_errcode (s : State) : (s.clearRegisters).errcode = 0 := rfl
@[simp] theorem clearRegisters_ilen (s : State) : (s.clearRegisters).ilen = 0 := rfl
@[simp] theorem clearRegisters_clen (s : State) : (s.clearRegisters).clen = 0 := rfl
@[simp] theorem clearRegisters_olen (s : State) : (s.clearRegisters).olen = 0 := rfl
@[simp] theorem clearRegisters_slen (s : State) : (s.clearRegisters).slen = 0 := rfl
@[simp] theorem clearRegisters_nsym (s : State) : (s.clearRegisters).nsym = 0 := rfl
@[simp] theorem clearRegisters_bitlen (s : State) : (s.clearRegisters).bitlen = 0 := rfl
@[simp] theorem clearRegisters_pad (s : State) : (s.clearRegisters).pad = 0 := rfl
@[simp] theorem clearRegisters_rootfreq (s : State) : (s.clearRegisters).rootfreq = 0 := rfl
@[simp] theorem clearRegisters_opc (s : State) : (s.clearRegisters).opc = 0 := rfl
@[simp] theorem clearRegisters_ibuf (s : State) : (s.clearRegisters).ibuf = s.ibuf := rfl
@[simp] theorem clearRegisters_obuf (s : State) : (s.clearRegisters).obuf = s.obuf := rfl
@[simp] theorem clearRegisters_cbuf (s : State) : (s.clearRegisters).cbuf = s.cbuf := rfl
@[simp] theorem clearRegisters_script (s : State) : (s.clearRegisters).script = s.script := rfl
@[simp] theorem clearRegisters_answers (s : State) : (s.clearRegisters).answers = s.answers := rfl

/-! ### `note` -/

@[simp] theorem note_busy (s : State) (a : Answer) : (s.note a).busy = s.busy := rfl
@[simp] theorem note_done (s : State) (a : Answer) : (s.note a).done = s.done := rfl
@[simp] theorem note_err (s : State) (a : Answer) : (s.note a).err = s.err := rfl
@[simp] theorem note_errcode (s : State) (a : Answer) : (s.note a).errcode = s.errcode := rfl
@[simp] theorem note_ilen (s : State) (a : Answer) : (s.note a).ilen = s.ilen := rfl
@[simp] theorem note_clen (s : State) (a : Answer) : (s.note a).clen = s.clen := rfl
@[simp] theorem note_olen (s : State) (a : Answer) : (s.note a).olen = s.olen := rfl
@[simp] theorem note_slen (s : State) (a : Answer) : (s.note a).slen = s.slen := rfl
@[simp] theorem note_nsym (s : State) (a : Answer) : (s.note a).nsym = s.nsym := rfl
@[simp] theorem note_bitlen (s : State) (a : Answer) : (s.note a).bitlen = s.bitlen := rfl
@[simp] theorem note_pad (s : State) (a : Answer) : (s.note a).pad = s.pad := rfl
@[simp] theorem note_rootfreq (s : State) (a : Answer) : (s.note a).rootfreq = s.rootfreq := rfl
@[simp] theorem note_opc (s : State) (a : Answer) : (s.note a).opc = s.opc := rfl
@[simp] theorem note_ibuf (s : State) (a : Answer) : (s.note a).ibuf = s.ibuf := rfl
@[simp] theorem note_obuf (s : State) (a : Answer) : (s.note a).obuf = s.obuf := rfl
@[simp] theorem note_cbuf (s : State) (a : Answer) : (s.note a).cbuf = s.cbuf := rfl
@[simp] theorem note_script (s : State) (a : Answer) : (s.note a).script = s.script := rfl
@[simp] theorem note_answers (s : State) (a : Answer) : (s.note a).answers = a :: s.answers := rfl

/-! ### `deliverCompressed` -/

@[simp] theorem deliverCompressed_busy (s : State) (r : Compressed) : (s.deliverCompressed r).busy = s.busy := rfl
@[simp] theorem deliverCompressed_done (s : State) (r : Compressed) : (s.deliverCompressed r).done = s.done := rfl
@[simp] theorem deliverCompressed_err (s : State) (r : Compressed) : (s.deliverCompressed r).err = s.err := rfl
@[simp] theorem deliverCompressed_errcode (s : State) (r : Compressed) : (s.deliverCompressed r).errcode = s.errcode := rfl
@[simp] theorem deliverCompressed_ilen (s : State) (r : Compressed) : (s.deliverCompressed r).ilen = s.ilen := rfl
@[simp] theorem deliverCompressed_clen (s : State) (r : Compressed) : (s.deliverCompressed r).clen = BitVec.ofNat 32 r.artifact.length := rfl
@[simp] theorem deliverCompressed_olen (s : State) (r : Compressed) : (s.deliverCompressed r).olen = BitVec.ofNat 32 r.packed.stream.length := rfl
@[simp] theorem deliverCompressed_slen (s : State) (r : Compressed) : (s.deliverCompressed r).slen = BitVec.ofNat 32 r.symLen := rfl
@[simp] theorem deliverCompressed_nsym (s : State) (r : Compressed) : (s.deliverCompressed r).nsym = BitVec.ofNat 32 r.nsym := rfl
@[simp] theorem deliverCompressed_bitlen (s : State) (r : Compressed) : (s.deliverCompressed r).bitlen = BitVec.ofNat 32 r.packed.bitLen := rfl
@[simp] theorem deliverCompressed_pad (s : State) (r : Compressed) : (s.deliverCompressed r).pad = BitVec.ofNat 32 r.packed.pad := rfl
@[simp] theorem deliverCompressed_rootfreq (s : State) (r : Compressed) : (s.deliverCompressed r).rootfreq = BitVec.ofNat 32 r.rootFreq := rfl
@[simp] theorem deliverCompressed_opc (s : State) (r : Compressed) : (s.deliverCompressed r).opc = s.opc := rfl
@[simp] theorem deliverCompressed_ibuf (s : State) (r : Compressed) : (s.deliverCompressed r).ibuf = s.ibuf := rfl
@[simp] theorem deliverCompressed_obuf (s : State) (r : Compressed) : (s.deliverCompressed r).obuf = s.obuf.deliver r.packed.stream := rfl
@[simp] theorem deliverCompressed_cbuf (s : State) (r : Compressed) : (s.deliverCompressed r).cbuf = s.cbuf.deliver r.artifact := rfl
@[simp] theorem deliverCompressed_script (s : State) (r : Compressed) : (s.deliverCompressed r).script = s.script := rfl
@[simp] theorem deliverCompressed_answers (s : State) (r : Compressed) : (s.deliverCompressed r).answers = s.answers := rfl

/-! ### `deliverDecompressed` -/

@[simp] theorem deliverDecompressed_busy (s : State) (r : Decompressed) : (s.deliverDecompressed r).busy = s.busy := rfl
@[simp] theorem deliverDecompressed_done (s : State) (r : Decompressed) : (s.deliverDecompressed r).done = s.done := rfl
@[simp] theorem deliverDecompressed_err (s : State) (r : Decompressed) : (s.deliverDecompressed r).err = s.err := rfl
@[simp] theorem deliverDecompressed_errcode (s : State) (r : Decompressed) : (s.deliverDecompressed r).errcode = s.errcode := rfl
@[simp] theorem deliverDecompressed_ilen (s : State) (r : Decompressed) : (s.deliverDecompressed r).ilen = s.ilen := rfl
@[simp] theorem deliverDecompressed_clen (s : State) (r : Decompressed) : (s.deliverDecompressed r).clen = s.clen := rfl
@[simp] theorem deliverDecompressed_olen (s : State) (r : Decompressed) : (s.deliverDecompressed r).olen = BitVec.ofNat 32 r.unpacked.out.length := rfl
@[simp] theorem deliverDecompressed_slen (s : State) (r : Decompressed) : (s.deliverDecompressed r).slen = BitVec.ofNat 32 r.unpacked.out.length := rfl
@[simp] theorem deliverDecompressed_nsym (s : State) (r : Decompressed) : (s.deliverDecompressed r).nsym = BitVec.ofNat 32 r.nsym := rfl
@[simp] theorem deliverDecompressed_bitlen (s : State) (r : Decompressed) : (s.deliverDecompressed r).bitlen = BitVec.ofNat 32 r.unpacked.bitLen := rfl
@[simp] theorem deliverDecompressed_pad (s : State) (r : Decompressed) : (s.deliverDecompressed r).pad = BitVec.ofNat 32 r.unpacked.pad := rfl
@[simp] theorem deliverDecompressed_rootfreq (s : State) (r : Decompressed) : (s.deliverDecompressed r).rootfreq = 0 := rfl
@[simp] theorem deliverDecompressed_opc (s : State) (r : Decompressed) : (s.deliverDecompressed r).opc = s.opc := rfl
@[simp] theorem deliverDecompressed_ibuf (s : State) (r : Decompressed) : (s.deliverDecompressed r).ibuf = s.ibuf := rfl
@[simp] theorem deliverDecompressed_obuf (s : State) (r : Decompressed) : (s.deliverDecompressed r).obuf = s.obuf.deliver r.unpacked.out := rfl
@[simp] theorem deliverDecompressed_cbuf (s : State) (r : Decompressed) : (s.deliverDecompressed r).cbuf = s.cbuf := rfl
@[simp] theorem deliverDecompressed_script (s : State) (r : Decompressed) : (s.deliverDecompressed r).script = s.script := rfl
@[simp] theorem deliverDecompressed_answers (s : State) (r : Decompressed) : (s.deliverDecompressed r).answers = s.answers := rfl

/-! ### `setMem` -/

@[simp] theorem setMem_busy (s : State) (b : Buf) (m : Memory) : (s.setMem b m).busy = s.busy := by cases b <;> rfl
@[simp] theorem setMem_done (s : State) (b : Buf) (m : Memory) : (s.setMem b m).done = s.done := by cases b <;> rfl
@[simp] theorem setMem_err (s : State) (b : Buf) (m : Memory) : (s.setMem b m).err = s.err := by cases b <;> rfl
@[simp] theorem setMem_errcode (s : State) (b : Buf) (m : Memory) : (s.setMem b m).errcode = s.errcode := by cases b <;> rfl
@[simp] theorem setMem_ilen (s : State) (b : Buf) (m : Memory) : (s.setMem b m).ilen = s.ilen := by cases b <;> rfl
@[simp] theorem setMem_clen (s : State) (b : Buf) (m : Memory) : (s.setMem b m).clen = s.clen := by cases b <;> rfl
@[simp] theorem setMem_olen (s : State) (b : Buf) (m : Memory) : (s.setMem b m).olen = s.olen := by cases b <;> rfl
@[simp] theorem setMem_slen (s : State) (b : Buf) (m : Memory) : (s.setMem b m).slen = s.slen := by cases b <;> rfl
@[simp] theorem setMem_nsym (s : State) (b : Buf) (m : Memory) : (s.setMem b m).nsym = s.nsym := by cases b <;> rfl
@[simp] theorem setMem_bitlen (s : State) (b : Buf) (m : Memory) : (s.setMem b m).bitlen = s.bitlen := by cases b <;> rfl
@[simp] theorem setMem_pad (s : State) (b : Buf) (m : Memory) : (s.setMem b m).pad = s.pad := by cases b <;> rfl
@[simp] theorem setMem_rootfreq (s : State) (b : Buf) (m : Memory) : (s.setMem b m).rootfreq = s.rootfreq := by cases b <;> rfl
@[simp] theorem setMem_opc (s : State) (b : Buf) (m : Memory) : (s.setMem b m).opc = s.opc := by cases b <;> rfl
@[simp] theorem setMem_script (s : State) (b : Buf) (m : Memory) : (s.setMem b m).script = s.script := by cases b <;> rfl
@[simp] theorem setMem_answers (s : State) (b : Buf) (m : Memory) : (s.setMem b m).answers = s.answers := by cases b <;> rfl

/-! ### `forgetBuf` -/

@[simp] theorem forgetBuf_busy (s : State) (b : Buf) : (s.forgetBuf b).busy = s.busy := by cases b <;> rfl
@[simp] theorem forgetBuf_done (s : State) (b : Buf) : (s.forgetBuf b).done = s.done := by cases b <;> rfl
@[simp] theorem forgetBuf_err (s : State) (b : Buf) : (s.forgetBuf b).err = s.err := by cases b <;> rfl
@[simp] theorem forgetBuf_errcode (s : State) (b : Buf) : (s.forgetBuf b).errcode = s.errcode := by cases b <;> rfl
@[simp] theorem forgetBuf_ilen (s : State) (b : Buf) : (s.forgetBuf b).ilen = s.ilen := by cases b <;> rfl
@[simp] theorem forgetBuf_clen (s : State) (b : Buf) : (s.forgetBuf b).clen = s.clen := by cases b <;> rfl
@[simp] theorem forgetBuf_olen (s : State) (b : Buf) : (s.forgetBuf b).olen = s.olen := by cases b <;> rfl
@[simp] theorem forgetBuf_slen (s : State) (b : Buf) : (s.forgetBuf b).slen = s.slen := by cases b <;> rfl
@[simp] theorem forgetBuf_nsym (s : State) (b : Buf) : (s.forgetBuf b).nsym = s.nsym := by cases b <;> rfl
@[simp] theorem forgetBuf_bitlen (s : State) (b : Buf) : (s.forgetBuf b).bitlen = s.bitlen := by cases b <;> rfl
@[simp] theorem forgetBuf_pad (s : State) (b : Buf) : (s.forgetBuf b).pad = s.pad := by cases b <;> rfl
@[simp] theorem forgetBuf_rootfreq (s : State) (b : Buf) : (s.forgetBuf b).rootfreq = s.rootfreq := by cases b <;> rfl
@[simp] theorem forgetBuf_opc (s : State) (b : Buf) : (s.forgetBuf b).opc = s.opc := by cases b <;> rfl
@[simp] theorem forgetBuf_script (s : State) (b : Buf) : (s.forgetBuf b).script = s.script := by cases b <;> rfl
@[simp] theorem forgetBuf_answers (s : State) (b : Buf) : (s.forgetBuf b).answers = s.answers := by cases b <;> rfl

/-! ### `hardwareReset` -/

@[simp] theorem hardwareReset_busy (s : State) : (s.hardwareReset).busy = false := rfl
@[simp] theorem hardwareReset_done (s : State) : (s.hardwareReset).done = false := rfl
@[simp] theorem hardwareReset_err (s : State) : (s.hardwareReset).err = false := rfl
@[simp] theorem hardwareReset_errcode (s : State) : (s.hardwareReset).errcode = 0 := rfl
@[simp] theorem hardwareReset_ilen (s : State) : (s.hardwareReset).ilen = 0 := rfl
@[simp] theorem hardwareReset_clen (s : State) : (s.hardwareReset).clen = 0 := rfl
@[simp] theorem hardwareReset_olen (s : State) : (s.hardwareReset).olen = 0 := rfl
@[simp] theorem hardwareReset_slen (s : State) : (s.hardwareReset).slen = 0 := rfl
@[simp] theorem hardwareReset_nsym (s : State) : (s.hardwareReset).nsym = 0 := rfl
@[simp] theorem hardwareReset_bitlen (s : State) : (s.hardwareReset).bitlen = 0 := rfl
@[simp] theorem hardwareReset_pad (s : State) : (s.hardwareReset).pad = 0 := rfl
@[simp] theorem hardwareReset_rootfreq (s : State) : (s.hardwareReset).rootfreq = 0 := rfl
@[simp] theorem hardwareReset_opc (s : State) : (s.hardwareReset).opc = 0 := rfl
@[simp] theorem hardwareReset_ibuf (s : State) : (s.hardwareReset).ibuf = s.ibuf.forget := rfl
@[simp] theorem hardwareReset_obuf (s : State) : (s.hardwareReset).obuf = s.obuf.forget := rfl
@[simp] theorem hardwareReset_cbuf (s : State) : (s.hardwareReset).cbuf = s.cbuf.forget := rfl
@[simp] theorem hardwareReset_script (s : State) : (s.hardwareReset).script = s.script := rfl
@[simp] theorem hardwareReset_answers (s : State) : (s.hardwareReset).answers = s.answers := rfl

/-! ### Buffers under `setMem` and `forgetBuf` -/

@[simp] theorem mem_ibuf (s : State) : s.mem .ibuf = s.ibuf := rfl
@[simp] theorem mem_obuf (s : State) : s.mem .obuf = s.obuf := rfl
@[simp] theorem mem_cbuf (s : State) : s.mem .cbuf = s.cbuf := rfl

theorem setMem_mem (s : State) (b b' : Buf) (m : Memory) :
    (s.setMem b m).mem b' = if b' = b then m else s.mem b' := by
  cases b <;> cases b' <;> rfl

theorem forgetBuf_mem (s : State) (b b' : Buf) :
    (s.forgetBuf b).mem b' = if b' = b then (s.mem b).forget else s.mem b' := setMem_mem s b b' _

/-- Replacing a buffer is a record update of that buffer. -/
theorem setMem_ibuf_eq (s : State) (m : Memory) : s.setMem .ibuf m = { s with ibuf := m } := rfl
theorem setMem_obuf_eq (s : State) (m : Memory) : s.setMem .obuf m = { s with obuf := m } := rfl
theorem setMem_cbuf_eq (s : State) (m : Memory) : s.setMem .cbuf m = { s with cbuf := m } := rfl

end Sys2Proof.Machine.State
end

