-- ==== Sys2Proof/Laws/Ops.lean ====
section
/-! SUPPORT. One lemma per shared operation that says once what it can do: error entry, acceptance, the two compositions,
the commands, the host's accesses, and one inversion lemma for the step. -/

namespace Sys2Proof.Machine

/-! ### Error entry -/

/-- A projection that forgetting one buffer keeps is kept by error entry's forgetting of several. -/
theorem foldl_forgetBuf_keeps {α : Type} (f : State → α) (hf : ∀ s b, f (s.forgetBuf b) = f s) (l : List Buf) (s : State) :
    f (l.foldl State.forgetBuf s) = f s := by
  induction l generalizing s with
  | nil => rfl
  | cons b l ih => rw [List.foldl_cons, ih, hf]

/-- A reserved word's error entry loses no buffer. -/
theorem raiseError_nil (s : State) (e : ErrorKind) :
    s.raiseError e [] = { s with busy := false, done := false, err := true, errcode := e.code } := rfl

/-- A `DECOMPRESS`'s error entry. -/
theorem raiseError_obuf (s : State) (e : ErrorKind) : s.raiseError e [.obuf] = s.failed e false := rfl

/-- A `COMPRESS`'s error entry. -/
theorem raiseError_obuf_cbuf (s : State) (e : ErrorKind) : s.raiseError e [.obuf, .cbuf] = s.failed e true := rfl

/-! ### Acceptance -/

theorem accept_compress (s : State) : s.accept (encode .compress) =
    { s with busy := true, done := false, opc := encode .compress, olen := 0, slen := 0, nsym := 0, bitlen := 0, pad := 0,
             rootfreq := 0, clen := 0 } := rfl

theorem accept_decompress (s : State) : s.accept (encode .decompress) =
    { s with busy := true, done := false, opc := encode .decompress, olen := 0, slen := 0, nsym := 0, bitlen := 0, pad := 0,
             rootfreq := 0 } := rfl

theorem accept_other (s : State) (w : Word) (h1 : w ≠ encode .compress) (h2 : w ≠ encode .decompress) :
    s.accept w = { s with busy := true, done := false, opc := w } := by
  simp [State.accept, h1, h2, State.flagsAccept]

/-! ### The compositions -/

/-- `compressText` succeeds exactly through its stages. -/
theorem compressText_ok {P : Params} {X : Bytes} {r : Compressed} (h : compressText P X = .ok r) :
    trim P X ≠ [] ∧ ∃ root pk, build (countSymbols (trim P X)) = some root ∧
      pack P (trim P X) (genCodes root).ct = .ok pk ∧
      r = { packed := pk, artifact := cbSer (genCodes root).rct, symLen := (trim P X).length,
            nsym := (countSymbols (trim P X)).domain.length, rootFreq := root.freq } := by
  simp only [compressText, analyze] at h
  by_cases h0 : trim P X = []
  · simp [h0] at h
  · rw [if_neg h0] at h
    refine ⟨h0, ?_⟩
    simp only at h
    split at h
    · simp at h
    · next root hr =>
      split at h
      · simp at h
      · next pk hp => exact ⟨root, pk, hr, hp, by simpa using h.symm⟩

/-- `decompressStream` succeeds exactly through its stages. -/
theorem decompressStream_ok {P : Params} {T E : Bytes} {r : Decompressed} (h : decompressStream P T E = .ok r) :
    ∃ t u, cbLoad T = .ok t ∧ unpack P E t = .ok u ∧ r = { unpacked := u, nsym := t.length } := by
  simp only [decompressStream] at h
  split at h
  · simp at h
  · next t ht =>
    split at h
    · simp at h
    · next u hu => exact ⟨t, u, ht, hu, by simpa using h.symm⟩

/-- What `COMPRESS` can do: fail with one error entry, or deliver and complete. -/
theorem compress_cases (P : Params) (s : State) :
    (∃ e, s.compress P = s.failed e true ∧
      (P.inCap < s.ilen.toNat ∧ e = .capacity ∨ s.ilen.toNat ≤ P.inCap ∧ compressText P s.inputBytes = .error e)) ∨
    (∃ r, s.ilen.toNat ≤ P.inCap ∧ compressText P s.inputBytes = .ok r ∧ s.compress P = (s.deliverCompressed r).complete) := by
  simp only [State.compress, raiseError_obuf_cbuf]
  by_cases h : P.inCap < s.ilen.toNat
  · rw [if_pos h]; exact .inl ⟨_, rfl, .inl ⟨h, rfl⟩⟩
  · rw [if_neg h]
    cases hc : compressText P s.inputBytes with
    | error e => exact .inl ⟨e, rfl, .inr ⟨by omega, rfl⟩⟩
    | ok r => exact .inr ⟨r, by omega, rfl, rfl⟩

/-- What `DECOMPRESS` can do: fail with one error entry, or deliver and complete. -/
theorem decompress_cases (P : Params) (s : State) :
    (∃ e, s.decompress P = s.failed e false ∧
      ((P.inCap < s.ilen.toNat ∨ Config.cbCap < s.clen.toNat) ∧ e = .capacity ∨
        decompressStream P s.codebookBytes s.inputBytes = .error e)) ∨
    (∃ r, s.ilen.toNat ≤ P.inCap ∧ s.clen.toNat ≤ Config.cbCap ∧
      decompressStream P s.codebookBytes s.inputBytes = .ok r ∧ s.decompress P = (s.deliverDecompressed r).complete) := by
  simp only [State.decompress, raiseError_obuf]
  by_cases h : P.inCap < s.ilen.toNat ∨ Config.cbCap < s.clen.toNat
  · rw [if_pos h]; exact .inl ⟨_, rfl, .inl ⟨h, rfl⟩⟩
  · rw [if_neg h]
    cases hc : decompressStream P s.codebookBytes s.inputBytes with
    | error e => exact .inl ⟨e, rfl, .inr rfl⟩
    | ok r => exact .inr ⟨r, by omega, by omega, rfl, rfl⟩

/-! ### The host's accesses -/

/-- What a host write of a register can do. -/
theorem hostWriteReg_cases (s : State) (n : Nat) (w : Word) :
    s.hostWriteReg n w = s ∨
    (s.busy = false ∧ n = 3 ∧ s.hostWriteReg n w = { s with ilen := w }) ∨
    (s.busy = false ∧ n = 4 ∧ s.hostWriteReg n w = { s with clen := w }) ∨
    (s.busy = false ∧ n = 0 ∧ (s.err = false ∨ w = encode .clrerr ∨ w = encode .clear) ∧
      s.hostWriteReg n w = s.accept w) := by
  cases hb : s.busy with
  | true => left; simp [State.hostWriteReg, hb]
  | false =>
    simp only [State.hostWriteReg, hb, Bool.false_eq_true, if_false]
    split
    · simp only [State.requestCommand, hb, Bool.false_eq_true, if_false]
      split
      · exact .inl rfl
      · next h =>
        refine .inr (.inr (.inr ⟨trivial, trivial, ?_, rfl⟩))
        by_cases h1 : w = encode .clrerr
        · exact .inr (.inl h1)
        · by_cases h2 : w = encode .clear
          · exact .inr (.inr h2)
          · exact .inl (by simpa [h1, h2] using h)
    · exact .inr (.inl ⟨trivial, rfl, rfl⟩)
    · exact .inr (.inr (.inl ⟨trivial, rfl, rfl⟩))
    · exact .inl rfl

/-- What a host write of a buffer byte can do. -/
theorem hostWriteBuf_cases (P : Params) (s : State) (b : Buf) (off : Nat) (v : Byte) :
    s.hostWriteBuf P b off v = s ∨
    (s.busy = false ∧ off < P.cap b ∧ b ≠ .obuf ∧ s.hostWriteBuf P b off v = s.setMem b ((s.mem b).write off v)) := by
  simp only [State.hostWriteBuf]
  split
  · exact .inl rfl
  · next h =>
    simp only [not_or] at h
    exact .inr ⟨by simpa using h.1, by omega, by rintro rfl; simp [hostWritable] at h, rfl⟩

/-- While `BUSY = 1` a host access changes nothing but the log of answers (R43). -/
theorem hostEvent_busy (P : Params) (s : State) (e : Event) (hb : s.busy = true) (h1 : e ≠ .engine) (h2 : e ≠ .hardReset) :
    ∃ as, s.hostEvent P e = { s with answers := as } := by
  cases e with
  | readReg n => exact ⟨_, rfl⟩
  | readBuf b off => exact ⟨_, rfl⟩
  | writeReg n w => exact ⟨s.answers, by simp only [State.hostEvent, State.hostWriteReg]; rw [if_pos hb]⟩
  | writeBuf b off v => exact ⟨s.answers, by simp only [State.hostEvent, State.hostWriteBuf]; rw [if_pos (.inl hb)]⟩
  | engine => exact absurd rfl h1
  | hardReset => exact absurd rfl h2

/-! ### The step -/

/-- It is the engine's turn: the script says so, or is empty. -/
abbrev State.engineNext (s : State) : Prop := s.script = [] ∨ ∃ rest, s.script = .engine :: rest

/-- The state with the event that is being taken off the script. -/
abbrev State.popped (s : State) : State := { s with script := s.script.tail }

theorem popped_of_nil {s : State} (h : s.script = []) : s.popped = s := by
  simp only [State.popped, h, List.tail_nil]
  exact congrArg (fun l => { s with script := l }) h.symm

/-- One inversion lemma for the step: what it can be. -/
theorem step_cases {s t : State} (h : step s = .next t) :
    (s.engineNext ∧ s.busy = true ∧ ∃ i, decodeWord s.opc = .ok i ∧ exec i s.popped = .next t) ∨
    (s.engineNext ∧ s.busy = true ∧ (∃ e, decodeWord s.opc = .error e) ∧ t = s.popped.raiseError .illegalCommand []) ∨
    (s.engineNext ∧ s.busy = false ∧ t = s.popped) ∨
    (∃ e rest, s.script = e :: rest ∧ e ≠ .engine ∧ t = s.popped.hostEvent Config.hw e) := by
  have turn : ∀ {u : State}, s.engineNext → u = s.popped → engineTurn u = .next t →
      (s.engineNext ∧ s.busy = true ∧ ∃ i, decodeWord s.opc = .ok i ∧ exec i s.popped = .next t) ∨
      (s.engineNext ∧ s.busy = true ∧ (∃ e, decodeWord s.opc = .error e) ∧ t = s.popped.raiseError .illegalCommand []) ∨
      (s.engineNext ∧ s.busy = false ∧ t = s.popped) := by
    rintro u hn rfl hu
    simp only [engineTurn, executeLatched, State.fetchCommand] at hu
    cases hb : s.busy with
    | false => simp only [hb, Bool.false_eq_true, if_false, Host.Outcome.next.injEq] at hu; exact .inr (.inr ⟨hn, rfl, hu.symm⟩)
    | true =>
      simp only [hb, if_true] at hu
      split at hu
      · next i hi => exact .inl ⟨hn, rfl, i, hi, hu⟩
      · next e he => exact .inr (.inl ⟨hn, rfl, ⟨e, he⟩, by simpa [execReserved] using hu.symm⟩)
  cases hs : s.script with
  | nil =>
    have h' : engineTurn s = .next t := by simpa [step, hs] using h
    rcases turn (.inl hs) (popped_of_nil hs).symm h' with h | h | h
    · exact .inl (by simpa [State.engineNext, hs] using h)
    · exact .inr (.inl (by simpa [State.engineNext, hs] using h))
    · exact .inr (.inr (.inl (by simpa [State.engineNext, hs] using h)))
  | cons e rest =>
    have h' : takeEvent e { s with script := rest } = .next t := by simpa [step, hs] using h
    have hp : { s with script := rest } = s.popped := by simp [State.popped, hs]
    by_cases he : e = .engine
    · subst he
      rcases turn (.inr ⟨rest, hs⟩) hp h' with h | h | h
      · exact .inl (by simpa [State.engineNext, hs] using h)
      · exact .inr (.inl (by simpa [State.engineNext, hs] using h))
      · exact .inr (.inr (.inl (by simpa [State.engineNext, hs] using h)))
    · refine .inr (.inr (.inr ⟨e, rest, rfl, he, ?_⟩))
      rw [hp] at h'
      cases e <;> first | exact absurd rfl he | simpa [takeEvent] using h'.symm

end Sys2Proof.Machine
end

