-- ==== Sys2Proof/Laws/Tree.lean ====
section
/-! SUPPORT. The frequency analyzer and the tree builder: what the counters hold, what one extraction takes, and the induction
along the merge loop from which the tree's properties follow. -/

namespace Sys2Proof.Machine

/-! ### Counting -/

theorem foldl_bump (S : Bytes) (ft : FreqTable) (x : Byte) : S.foldl FreqTable.bump ft x = ft x + S.count x := by
  induction S generalizing ft with
  | nil => simp
  | cons y S ih =>
    rw [List.foldl_cons, ih, List.count_cons]
    simp only [FreqTable.bump, beq_iff_eq]
    by_cases h : x = y
    · subst h; simp; omega
    · simp [h, Ne.symm h]

/-- Each counter ends as the number of occurrences of its Symbol. -/
theorem countSymbols_eq (S : Bytes) (x : Byte) : countSymbols S x = S.count x := by
  simp [countSymbols, foldl_bump]

theorem mem_allSymbols (x : Byte) : x ∈ allSymbols :=
  List.mem_map.2 ⟨x.toNat, List.mem_range.2 x.isLt, by simp⟩

theorem nodup_allSymbols : allSymbols.Nodup := by
  refine List.Nodup.map_on (fun a ha b hb h => ?_) List.nodup_range
  have := congrArg BitVec.toNat h
  simp only [BitVec.toNat_ofNat, List.mem_range] at *
  omega

/-- A table's domain is the distinct Symbols of the sequence, in some order. -/
theorem domain_perm_dedup (S : Bytes) : (countSymbols S).domain.Perm S.dedup := by
  refine (List.perm_ext_iff_of_nodup (nodup_allSymbols.filter _) (List.nodup_dedup S)).2 fun x => ?_
  simp [mem_allSymbols, countSymbols_eq, List.count_pos_iff]

theorem nodup_domain (ft : FreqTable) : ft.domain.Nodup := nodup_allSymbols.filter _

theorem mem_domain {S : Bytes} {x : Byte} : x ∈ (countSymbols S).domain ↔ x ∈ S := by
  rw [(domain_perm_dedup S).mem_iff, List.mem_dedup]

theorem domain_length (S : Bytes) : (countSymbols S).domain.length = S.dedup.length := (domain_perm_dedup S).length_eq

theorem domain_length_le (ft : FreqTable) : ft.domain.length ≤ 256 :=
  (List.length_filter_le _ _).trans (by simp [allSymbols])

theorem domain_ne_nil {S : Bytes} (h : S ≠ []) : (countSymbols S).domain ≠ [] := by
  obtain ⟨x, hx⟩ := List.exists_mem_of_ne_nil S h
  exact List.ne_nil_of_mem (mem_domain.2 hx)

/-- The counters of the domain sum to the length of the sequence. -/
theorem sum_domain (S : Bytes) : ((countSymbols S).domain.map (countSymbols S)).sum = S.length := by
  rw [((domain_perm_dedup S).map _).sum_eq, show countSymbols S = fun x => S.count x from funext (countSymbols_eq S)]
  exact List.sum_map_count_dedup_eq_length S

/-! ### Extraction -/

theorem extractMin_eq_none {pq : Queue} : extractMin pq = none ↔ pq = [] := by
  cases pq with
  | nil => simp [extractMin]
  | cons x xs =>
    simp only [extractMin, reduceCtorEq, iff_false]
    split
    · simp
    · split <;> simp

/-- An extraction takes one node out of the queue. -/
theorem extractMin_perm {pq rest : Queue} {m : HuffNode} (h : extractMin pq = some (m, rest)) : (m :: rest).Perm pq := by
  induction pq generalizing m rest with
  | nil => simp [extractMin] at h
  | cons x xs ih =>
    simp only [extractMin] at h
    split at h
    · next hn => rw [extractMin_eq_none] at hn; simp at h; simp [← h.1, ← h.2, hn]
    · next m' rest' hm =>
      split at h
      · simp only [Option.some.injEq, Prod.mk.injEq] at h
        obtain ⟨rfl, rfl⟩ := h
        exact (List.Perm.swap _ _ _).trans ((ih hm).cons x)
      · simp only [Option.some.injEq, Prod.mk.injEq] at h
        obtain ⟨rfl, rfl⟩ := h
        exact .refl _

/-- No key left in the queue is less than the key taken. -/
theorem extractMin_least {pq rest : Queue} {m : HuffNode} (h : extractMin pq = some (m, rest)) :
    ∀ x ∈ rest, m.freq < x.freq ∨ m.freq = x.freq ∧ m.index ≤ x.index := by
  induction pq generalizing m rest with
  | nil => simp [extractMin] at h
  | cons x xs ih =>
    simp only [extractMin] at h
    split at h
    · simp only [Option.some.injEq, Prod.mk.injEq] at h
      obtain ⟨rfl, rfl⟩ := h
      simp
    · next m' rest' hm =>
      split at h
      · next hb =>
        simp only [Option.some.injEq, Prod.mk.injEq] at h
        obtain ⟨rfl, rfl⟩ := h
        intro y hy
        rcases List.mem_cons.1 hy with rfl | hy
        · simp only [HuffNode.before, Bool.or_eq_true, Bool.and_eq_true, decide_eq_true_eq] at hb
          rcases hb with hb | hb
          · exact .inl hb
          · exact .inr ⟨hb.1, hb.2.le⟩
        · exact ih hm y hy
      · next hb =>
        simp only [Option.some.injEq, Prod.mk.injEq] at h
        obtain ⟨rfl, rfl⟩ := h
        intro y hy
        simp only [HuffNode.before, Bool.or_eq_true, Bool.and_eq_true, decide_eq_true_eq, not_or, not_and, not_lt] at hb
        have hx : x.freq < m'.freq ∨ x.freq = m'.freq ∧ x.index ≤ m'.index := by
          rcases lt_or_eq_of_le hb.1 with h | h
          · exact .inl h
          · exact .inr ⟨h, hb.2 h.symm⟩
        rcases List.mem_cons.1 ((extractMin_perm hm).symm.mem_iff.1 hy) with rfl | hy
        · exact hx
        · rcases ih hm y hy with h | h <;> rcases hx with h' | h' <;> omega

theorem extractMin_freq_le {pq rest : Queue} {m : HuffNode} (h : extractMin pq = some (m, rest)) :
    ∀ x ∈ rest, m.freq ≤ x.freq := fun x hx => by rcases extractMin_least h x hx with h | h <;> omega

/-! ### The merge loop -/

/-- One merge: the two least nodes `a`, `b` leave the queue `pq` and their parent enters. -/
structure Merge (pq : Queue) (a b : HuffNode) (rest : Queue) : Prop where
  perm : (a :: b :: rest).Perm pq
  least : ∀ x ∈ rest, a.freq ≤ b.freq ∧ b.freq ≤ x.freq
  ordered : a.freq ≤ b.freq
  key : a.freq < b.freq ∨ a.freq = b.freq ∧ a.index ≤ b.index

theorem merge_of_extract {pq pq1 pq2 : Queue} {a b : HuffNode} (h1 : extractMin pq = some (a, pq1))
    (h2 : extractMin pq1 = some (b, pq2)) : Merge pq a b pq2 := by
  have hb : b ∈ pq1 := (extractMin_perm h2).mem_iff.1 List.mem_cons_self
  have hab := extractMin_freq_le h1 b hb
  exact ⟨((extractMin_perm h2).cons a).trans (extractMin_perm h1), fun x hx => ⟨hab, extractMin_freq_le h2 x hx⟩, hab,
    extractMin_least h1 b hb⟩

/-- Induction along the merge loop: a property that each merge keeps holds of the one node left, which is there after one merge
fewer than there were nodes. -/
theorem mergeLoop_induction (P : Nat → Queue → Prop)
    (step : ∀ k pq a b rest, P k pq → Merge pq a b rest → P (k + 1) (mergeNode k a b :: rest)) :
    ∀ fuel k pq, pq ≠ [] → pq.length ≤ fuel + 1 → P k pq →
      ∃ root, mergeLoop fuel k pq = [root] ∧ P (k + (pq.length - 1)) [root] := by
  intro fuel
  induction fuel with
  | zero =>
    intro k pq hne hl hP
    obtain ⟨x, rfl⟩ := List.length_eq_one_iff.1 (show pq.length = 1 by have := List.length_pos_iff.2 hne; omega)
    exact ⟨x, rfl, hP⟩
  | succ fuel ih =>
    intro k pq hne hl hP
    obtain ⟨⟨a, pq1⟩, h1⟩ := Option.ne_none_iff_exists'.1 (mt extractMin_eq_none.1 hne)
    have hp1 := extractMin_perm h1
    cases h2 : extractMin pq1 with
    | none =>
      rw [extractMin_eq_none] at h2
      subst h2
      obtain rfl : pq = [a] := List.perm_singleton.1 hp1.symm
      refine ⟨a, ?_, hP⟩
      simp only [mergeLoop, h1]
      rfl
    | some r =>
      obtain ⟨b, pq2⟩ := r
      have hm := merge_of_extract h1 h2
      have hlen := hm.perm.length_eq
      simp only [List.length_cons] at hlen
      obtain ⟨root, hr, hPr⟩ := ih (k + 1) (mergeNode k a b :: pq2) (by simp) (by simp only [List.length_cons]; omega)
        (step k pq a b pq2 hP hm)
      refine ⟨root, by simp only [mergeLoop, h1, h2, hr], ?_⟩
      have : k + (pq.length - 1) = k + 1 + ((mergeNode k a b :: pq2).length - 1) := by
        simp only [List.length_cons]; omega
      rw [this]; exact hPr

theorem initialQueue_length (S : Bytes) : (initialQueue (countSymbols S)).length = S.dedup.length := by
  simp [initialQueue, domain_length]

/-- What holds of the initial queue and is kept by each merge holds of the tree that `Build` makes. -/
theorem build_induction (S : Bytes) (hS : S ≠ []) (P : Nat → Queue → Prop)
    (init : P 0 (initialQueue (countSymbols S)))
    (step : ∀ k pq a b rest, P k pq → Merge pq a b rest → P (k + 1) (mergeNode k a b :: rest)) :
    ∃ root, build (countSymbols S) = some root ∧ P (S.dedup.length - 1) [root] := by
  have hne : initialQueue (countSymbols S) ≠ [] := by simpa [initialQueue] using domain_ne_nil hS
  obtain ⟨root, hr, hP⟩ := mergeLoop_induction P step (initialQueue (countSymbols S)).length 0 _ hne (by omega) init
  refine ⟨root, by simp [build, hr], ?_⟩
  simpa [initialQueue_length] using hP

end Sys2Proof.Machine
end

