-- ==== Sys2Proof/Laws/Codes.lean ====
section
/-! SUPPORT. The code-table generator: the walk's two tables in closed form, and what the codes of a tree look like. -/

namespace Sys2Proof.Machine

/-- The entries of a subtree whose root has the path `path`, left to right. -/
def HuffNode.codes : HuffNode → BitString → RevTable
  | .leaf s _, path => [(path, s)]
  | .internal _ _ l r, path => l.codes (path ++ [false]) ++ r.codes (path ++ [true])

/-- The walk appends the subtree's entries to the reverse table. -/
theorem visit_rct (n : HuffNode) (path : BitString) (t : Tables) : (n.visit path t).rct = t.rct ++ n.codes path := by
  induction n generalizing path t with
  | leaf s f => rfl
  | internal i f l r ihl ihr => simp [HuffNode.visit, HuffNode.codes, ihl, ihr, List.append_assoc]

theorem codes_snd (n : HuffNode) (path : BitString) : (n.codes path).map Prod.snd = n.symbols := by
  induction n generalizing path with
  | leaf s f => rfl
  | internal i f l r ihl ihr => simp [HuffNode.codes, HuffNode.symbols, ihl, ihr]

/-- A Symbol that is no leaf of the subtree keeps its code. -/
theorem visit_ct_of_not_mem (n : HuffNode) (path : BitString) (t : Tables) (y : Byte) (h : y ∉ n.symbols) :
    (n.visit path t).ct y = t.ct y := by
  induction n generalizing path t with
  | leaf s f => simp only [HuffNode.symbols, List.mem_singleton] at h; simp [HuffNode.visit, Tables.register, h]
  | internal i f l r ihl ihr =>
    simp only [HuffNode.symbols, List.mem_append, not_or] at h
    rw [HuffNode.visit, ihr _ _ h.2, ihl _ _ h.1]

/-- With distinct leaves, each entry of the subtree is the code table's entry of its Symbol. -/
theorem visit_ct_of_mem (n : HuffNode) (path : BitString) (t : Tables) (hn : n.symbols.Nodup) (c : BitString) (y : Byte)
    (h : (c, y) ∈ n.codes path) : (n.visit path t).ct y = c := by
  induction n generalizing path t with
  | leaf s f =>
    simp only [HuffNode.codes, List.mem_singleton, Prod.mk.injEq] at h
    simp [HuffNode.visit, Tables.register, h.1, h.2]
  | internal i f l r ihl ihr =>
    rw [HuffNode.symbols, List.nodup_append] at hn
    rw [HuffNode.codes, List.mem_append] at h
    rw [HuffNode.visit]
    rcases h with h | h
    · have hy : y ∈ l.symbols := by rw [← codes_snd l (path ++ [false])]; exact List.mem_map_of_mem (f := Prod.snd) h
      rw [visit_ct_of_not_mem _ _ _ _ fun hr => hn.2.2 y hy y hr rfl]
      exact ihl _ _ hn.1 h
    · exact ihr _ _ hn.2.1 h

/-- Every code of a subtree extends its path, by at most the subtree's depth. -/
theorem codes_extend (n : HuffNode) (path : BitString) : ∀ e ∈ n.codes path, ∃ u, e.1 = path ++ u ∧ u.length ≤ n.depth := by
  induction n generalizing path with
  | leaf s f => intro e he; simp only [HuffNode.codes, List.mem_singleton] at he; exact ⟨[], by simp [he], Nat.zero_le _⟩
  | internal i f l r ihl ihr =>
    intro e he
    rw [HuffNode.codes, List.mem_append] at he
    rcases he with he | he
    · obtain ⟨u, hu, hl⟩ := ihl _ e he
      exact ⟨false :: u, by simp [hu], by simp only [List.length_cons, HuffNode.depth]; omega⟩
    · obtain ⟨u, hu, hl⟩ := ihr _ e he
      exact ⟨true :: u, by simp [hu], by simp only [List.length_cons, HuffNode.depth]; omega⟩

/-- The entries of `GenCodes` for an internal root are those of the walk from the empty path. -/
theorem genCodes_internal (i f : Nat) (l r : HuffNode) :
    (genCodes (.internal i f l r)).rct = (HuffNode.internal i f l r).codes [] := by
  simp [genCodes, visit_rct, Tables.empty]

theorem genCodes_leaf (x : Byte) (f : Nat) : (genCodes (.leaf x f)).rct = [([false], x)] := rfl

/-- The Symbols of the reverse table are the leaves, left to right. -/
theorem genCodes_snd (root : HuffNode) : (genCodes root).rct.map Prod.snd = root.symbols := by
  cases root with
  | leaf x f => rfl
  | internal i f l r => rw [genCodes_internal, codes_snd]

/-- Every generated code has at least one bit. -/
theorem genCodes_ne_nil (root : HuffNode) : ∀ e ∈ (genCodes root).rct, e.1 ≠ [] := by
  cases root with
  | leaf x f => simp [genCodes_leaf]
  | internal i f l r =>
    rw [genCodes_internal]
    intro e he
    rw [HuffNode.codes, List.mem_append] at he
    rcases he with he | he
    · obtain ⟨u, hu, -⟩ := codes_extend _ _ e he; simp [hu]
    · obtain ⟨u, hu, -⟩ := codes_extend _ _ e he; simp [hu]

/-- With distinct leaves, an entry of the reverse table is the code table's entry of its Symbol. -/
theorem genCodes_ct_of_mem (root : HuffNode) (hn : root.symbols.Nodup) {c : BitString} {y : Byte}
    (h : (c, y) ∈ (genCodes root).rct) : (genCodes root).ct y = c := by
  cases root with
  | leaf x f =>
    rw [genCodes_leaf, List.mem_singleton, Prod.mk.injEq] at h
    simp [genCodes, Tables.register, h.1, h.2]
  | internal i f l r =>
    rw [genCodes_internal] at h
    exact visit_ct_of_mem _ _ _ hn c y h

/-- A Symbol that is no leaf has no code. -/
theorem genCodes_ct_of_not_mem (root : HuffNode) {y : Byte} (h : y ∉ root.symbols) : (genCodes root).ct y = [] := by
  cases root with
  | leaf x f =>
    simp only [HuffNode.symbols, List.mem_singleton] at h
    simp [genCodes, Tables.register, Tables.empty, h]
  | internal i f l r => exact (visit_ct_of_not_mem _ _ _ _ h).trans rfl

theorem genCodes_length_le (root : HuffNode) : ∀ e ∈ (genCodes root).rct, e.1.length ≤ max 1 root.depth := by
  cases root with
  | leaf x f => simp [genCodes_leaf]
  | internal i f l r =>
    rw [genCodes_internal]
    intro e he
    obtain ⟨u, hu, hl⟩ := codes_extend _ _ e he
    simp only [hu, List.nil_append]; omega

end Sys2Proof.Machine
end

