-- ==== Sys2Proof/Laws/PerInstr.lean ====
section
/-! SUPPORT. A statement made per command: `EncodeFields`, the two fields of its command word (30_encoding.md R60, R61). -/

namespace Sys2Proof.Laws.EncodeFields

/-- Every command is well formed, and its word has `zero` = 0 above its opcode. -/
def Statement (i : Instr) : Prop :=
  i.wf = true ∧ zeroField (encode i) = 0#24 ∧ opcodeField (encode i) = opcodeOf i

theorem nop : Statement .nop := by unfold Statement; decide

theorem compress : Statement .compress := by unfold Statement; decide

theorem decompress : Statement .decompress := by unfold Statement; decide

theorem clrerr : Statement .clrerr := by unfold Statement; decide

theorem clear : Statement .clear := by unfold Statement; decide

end Sys2Proof.Laws.EncodeFields
end

