-- ==== Sys2Proof/Laws/Walk.lean ====
section
/-! SUPPORT. The greedy walk (46_bitstream_decoder.md R145): what one lookup and one run of bits can do. -/

namespace Sys2Proof.Machine

/-- A candidate is matched only by an entry whose code it equals. -/
theorem mem_of_matchCode {t : RevTable} {c : BitString} {s : Byte} (h : matchCode t c = some s) : (c, s) ∈ t := by
  obtain ⟨e, he, rfl⟩ := Option.map_eq_some_iff.1 h
  have h1 := List.find?_some he
  simp only [beq_iff_eq] at h1
  rw [← h1]
  exact List.mem_of_find?_eq_some he

theorem matchCode_eq_none {t : RevTable} {c : BitString} : matchCode t c = none ↔ ∀ e ∈ t, e.1 ≠ c := by
  simp [matchCode]

/-- In a table of distinct codes an entry is what its own code matches. -/
theorem matchCode_of_mem {t : RevTable} (hn : (t.map Prod.fst).Nodup) {c : BitString} {s : Byte} (h : (c, s) ∈ t) :
    matchCode t c = some s := by
  cases hm : matchCode t c with
  | none => exact absurd rfl (matchCode_eq_none.1 hm _ h)
  | some s' =>
    have h' := mem_of_matchCode hm
    have := List.inj_on_of_nodup_map hn h h' rfl
    rw [(Prod.mk.inj this).2]

/-- What was emitted before stays in front. -/
theorem walk_append (t : RevTable) (P cand : BitString) (O : Bytes) :
    walk t P cand O = (O ++ (walk t P cand []).1, (walk t P cand []).2) := by
  induction P generalizing cand O with
  | nil => simp [walk]
  | cons b P ih =>
    simp only [walk]
    cases matchCode t (cand ++ [b]) with
    | none => exact ih _ _
    | some s => simp only [List.nil_append]; rw [ih [] (O ++ [s]), ih [] [s]]; simp

/-- Each emitted Symbol takes at least one bit. -/
theorem walk_length (t : RevTable) (P cand : BitString) : (walk t P cand []).1.length ≤ P.length := by
  induction P generalizing cand with
  | nil => simp [walk]
  | cons b P ih =>
    simp only [walk]
    cases matchCode t (cand ++ [b]) with
    | none => exact (ih _).trans (by simp)
    | some s =>
      simp only [List.nil_append]
      rw [walk_append]
      have := ih []
      simp only [List.length_append, List.length_cons, List.length_nil]
      omega

/-- Bits that complete no code only lengthen the candidate. -/
theorem walk_no_match (t : RevTable) (u P cand : BitString) (O : Bytes)
    (h : ∀ v, v ≠ [] → v <+: u → matchCode t (cand ++ v) = none) : walk t (u ++ P) cand O = walk t P (cand ++ u) O := by
  induction u generalizing cand with
  | nil => simp
  | cons b u ih =>
    rw [List.cons_append, walk, h [b] (by simp) (by simp)]
    simp only
    rw [ih (cand ++ [b]) fun v hv hp => by
      have := h (b :: v) (by simp) (by simpa using hp)
      simpa using this]
    simp

end Sys2Proof.Machine
end

