-- ==== Sys2Proof/Tests/Slice0.lean ====
section
/-! SUPPORT. Tests, whose expected results are the vectors of spec/95_test_vectors.md (named V-…) or the worked examples of the
rule named; and for each obligation with hypotheses a witness that meets them. -/

namespace Sys2Proof.Tests

set_option Elab.async false

open Sys2Proof.Machine

/-! ### Small builders -/

def bytes (l : List Nat) : Bytes := l.map (BitVec.ofNat 8)

def bits (l : List Nat) : BitString := l.map (· == 1)

/-- A buffer that the host has written from offset 0. -/
def hold (vs : Bytes) : Memory := Memory.unspecified.writeBytes 0 vs

/-- After reset, a text or stream loaded. -/
def loaded (vs : Bytes) : State := { State.reset with ibuf := hold vs, ilen := BitVec.ofNat 32 vs.length }

/-- A codebook loaded too. -/
def booked (t : Bytes) (s : State) : State := { s with cbuf := hold t, clen := BitVec.ofNat 32 t.length }

/-- The host plans these events. -/
def plan (es : List Event) (s : State) : State := { s with script := es }

def nextOf (s : State) : Host.Outcome State Fault Refusal → State
  | .next t => t
  | _ => s

/-- The state after the command word `w` has been accepted and executed. -/
def ran (w : Nat) (s : State) : State := nextOf s (step (s.withFetchWord 32 w))

/-- Registers 0 to 10, as the host reads them. -/
def regs (s : State) : List Nat := (List.range 11).map fun n => (s.hostReadReg n).toNat

/-- "abracadabra" -/
def abra : Bytes := bytes [0x61, 0x62, 0x72, 0x61, 0x63, 0x61, 0x64, 0x61, 0x62, 0x72, 0x61]

/-- V-G1. -/
def t1 : RevTable :=
  [(bits [0], 0x61), (bits [1, 0, 0], 0x63), (bits [1, 0, 1], 0x64), (bits [1, 1, 0], 0x62), (bits [1, 1, 1], 0x72)]

/-- V-L18: accepted, not prefix-free. -/
def t2 : RevTable := [(bits [0], 0x61), (bits [0, 1], 0x62), (bits [1], 0x63)]

/-- V-S1. -/
def s1 : Bytes := bytes [0x36, 0x31, 0x2C, 0x30, 0x0A, 0x36, 0x33, 0x2C, 0x31, 0x30, 0x30, 0x0A, 0x36, 0x34, 0x2C, 0x31, 0x30,
  0x31, 0x0A, 0x36, 0x32, 0x2C, 0x31, 0x31, 0x30, 0x0A, 0x37, 0x32, 0x2C, 0x31, 0x31, 0x31, 0x0A]

/-- The stream of V-P1. -/
def p1 : Bytes := bytes [0x01, 0x6E, 0x8A, 0xDC]

/-- A code of `n` zeros. -/
def zeros (n : Nat) : BitString := List.replicate n false

/-! ### Well-formedness refuses ill-formed terms -/

theorem test_params_wf : Config.hw.wf = true ∧ ({ Config.hw with inCap := 0 } : Params).wf = false ∧
    ({ Config.hw with inCap := 524287 } : Params).wf = false ∧ ({ Config.hw with outCap := 2 ^ 27 + 1 } : Params).wf = false ∧
    ({ inCap := 2 ^ 24 + 1, outCap := 2 ^ 27, ws := [] } : Params).wf = false := by decide +kernel

theorem test_revTable_wf : t1.wf = true ∧ RevTable.wf [(bits [], 0x61)] = false ∧ RevTable.wf [(zeros 256, 0x61)] = false ∧
    RevTable.wf [(zeros 255, 0x61)] = true ∧ RevTable.wf [(bits [0], 0x61), (bits [0], 0x62)] = false ∧
    RevTable.wf [(bits [0], 0x61), (bits [1], 0x61)] = false := by decide +kernel

theorem test_codeWf : codeWf [] = false ∧ codeWf (zeros 256) = false ∧ codeWf [true] = true := by decide +kernel

theorem test_headerWf : headerWf 0 = false ∧ headerWf 1 = true ∧ headerWf 8 = true ∧ headerWf 9 = false ∧ headerWf 0xFF = false := by
  decide

theorem test_codesApart : t1.codesApart = true ∧ t2.codesApart = false := by decide +kernel

/-- No command has an operand, so none is ill formed; an ill-formed word is refused by the decoder. -/
theorem test_instr_wf : Instr.wf .compress = true ∧ (decodeWord 0x00000101#32).toOption = none := by decide

/-! ### Decoding: words written out from R60 and R61 (V-E1 to V-E7) -/

theorem test_decode_nop : decodeWord 0b00000000000000000000000000000000#32 = .ok .nop := by decide
theorem test_decode_compress : decodeWord 0b00000000000000000000000000000001#32 = .ok .compress := by decide
theorem test_decode_decompress : decodeWord 0b00000000000000000000000000000010#32 = .ok .decompress := by decide
theorem test_decode_clrerr : decodeWord 0b00000000000000000000000000010000#32 = .ok .clrerr := by decide
theorem test_decode_clear : decodeWord 0b00000000000000000000000000010001#32 = .ok .clear := by decide
theorem test_decode_reserved : decodeWord 0b00000000000000000000000011111111#32 = .error .reservedOpcode ∧
    decodeWord 0b10000000000000000000000000000001#32 = .error .upperBitsSet := by decide
theorem test_decodeTableWord : decodeTableWord 32 0x11 = some .clear ∧ decodeTableWord 32 0x3 = none ∧
    decodeTableWord 32 (2 ^ 32) = none := by decide

/-! ### Bits, conditioning, analysis -/

/-- V-M3, V-M4, V-M7. -/
theorem test_bits : bitsToBytes (bits [0, 1, 1, 0, 1, 1, 1, 0, 1, 0, 0, 0, 1, 0, 1, 0]) = bytes [0x6E, 0x8A] ∧
    bytesToBits (bytes [0xDC]) = bits [1, 1, 0, 1, 1, 1, 0, 0] ∧ symbolField 0x2C = bytes [0x32, 0x43] := by decide +kernel

/-- V-T2, V-T4, V-T5, V-T7, V-T8. -/
theorem test_trim : trim Config.hw (bytes [0x68, 0x69, 0x20, 0x0A]) = bytes [0x68, 0x69] ∧
    trim Config.hw (bytes [0x61, 0x20, 0x0B, 0x0C, 0x0D]) = bytes [0x61] ∧ trim Config.hw (bytes [0x20, 0x0A, 0x09]) = [] ∧
    trim Config.hw (bytes [0x0A, 0x20, 0x61]) = bytes [0x0A, 0x20, 0x61] ∧
    trim Config.hw (bytes [0x00, 0xFF, 0x00, 0x0A, 0x00]) = bytes [0x00, 0xFF, 0x00, 0x0A, 0x00] := by decide +kernel

/-- V-A1. -/
theorem test_analyze : (analyze abra).toOption.map (fun r => (r.1 0x61, r.1 0x62, r.1 0x63, r.1 0x72, r.2)) =
    some (5, 2, 1, 2, 5) := by decide +kernel

/-! ### Tree and codes -/

/-- "go go gophers" -/
def gophers : Bytes := bytes [0x67, 0x6F, 0x20, 0x67, 0x6F, 0x20, 0x67, 0x6F, 0x70, 0x68, 0x65, 0x72, 0x73]

/-- V-B1, V-B10: the merges, in order of creation. -/
theorem test_build : ((build (countSymbols abra)).map HuffNode.slots) =
    some [(256, 2, 0x63, 0x64), (257, 4, 0x62, 0x72), (258, 6, 256, 257), (259, 11, 0x61, 258)] ∧
    ((build (countSymbols (bytes [0x6D, 0x69, 0x73, 0x73, 0x69, 0x73, 0x73, 0x69, 0x70, 0x70, 0x69]))).map HuffNode.slots) =
    some [(256, 3, 0x6D, 0x70), (257, 7, 256, 0x69), (258, 11, 0x73, 257)] := by decide +kernel

/-- V-G1, V-G2, V-G8. -/
theorem test_genCodes : ((build (countSymbols abra)).map fun r => (genCodes r).rct) = some t1 ∧
    ((build (countSymbols (bytes [0x61, 0x61, 0x61, 0x61]))).map fun r => (genCodes r).rct) = some [(bits [0], 0x61)] ∧
    ((build (countSymbols gophers)).map fun r => (genCodes r).rct) = some [(bits [0, 0], 0x67), (bits [0, 1], 0x6F),
      (bits [1, 0, 0], 0x73), (bits [1, 0, 1], 0x20), (bits [1, 1, 0, 0], 0x65), (bits [1, 1, 0, 1], 0x68),
      (bits [1, 1, 1, 0], 0x70), (bits [1, 1, 1, 1], 0x72)] := by decide +kernel

/-! ### Packer, codebook, unpacker -/

/-- V-P4, V-P16, V-P17, V-P18. -/
theorem test_pack :
    (pack Config.hw (bytes [0x61, 0x62, 0x61, 0x62, 0x61, 0x62, 0x61, 0x62]) fun s => if s = 0x61 then bits [0] else bits [1]) =
      .ok { stream := bytes [0x08, 0x55, 0x00], bitLen := 8, pad := 8 } ∧
    (pack Config.hw (bytes [0x62, 0x61]) fun s => if s = 0x61 then bits [0, 0, 1] else bits [1]) =
      .ok { stream := bytes [0x04, 0x90], bitLen := 4, pad := 4 } ∧
    (pack Config.hw (bytes [0x61, 0x7A]) fun s => if s = 0x61 then bits [0] else []) = .error .unencodableSymbol ∧
    (pack Config.hw [] fun _ => []) = .ok { stream := bytes [0x08, 0x00], bitLen := 0, pad := 8 } := by decide +kernel

/-- V-S1, V-S12. -/
theorem test_cbSer : cbSer t1 = s1 ∧ cbSer [(bits [1], 0x00), (bits [0], 0xFF)] =
    bytes [0x30, 0x30, 0x2C, 0x31, 0x0A, 0x46, 0x46, 0x2C, 0x30, 0x0A] := by decide +kernel

/-- V-L1, V-L2, V-L5, V-L8, V-L11, V-L12, V-L13. -/
theorem test_cbLoad_rejects : ∀ T ∈ [[], bytes [0x36, 0x31, 0x2C, 0x30], bytes [0x36, 0x31, 0x2C, 0x30, 0x0A, 0x0A],
    bytes [0x36, 0x61, 0x2C, 0x30, 0x0A], bytes [0x36, 0x31, 0x2C, 0x30, 0x2C, 0x31, 0x0A],
    cbSer [(bits [0], 0x61), (bits [1], 0x61)], cbSer [(bits [0], 0x61), (bits [0], 0x62)]],
    (cbLoad T).toOption = none := by decide +kernel

/-- V-L18, V-L19. -/
theorem test_cbLoad_accepts : (cbLoad s1).toOption = some t1 ∧
    (cbLoad (bytes [0x36, 0x31, 0x2C, 0x30, 0x0A, 0x36, 0x32, 0x2C, 0x30, 0x31, 0x0A, 0x36, 0x33, 0x2C, 0x31, 0x0A])).toOption =
      some t2 := by decide +kernel

/-- V-U2, V-U3, V-U4, V-U8, V-U9, V-U11, V-U14. -/
theorem test_unpack : unpack Config.hw (bytes [0x01, 0x6E, 0x8A, 0xDD]) t1 = .ok { out := abra, bitLen := 23, pad := 1 } ∧
    unpack Config.hw (bytes [0x02, 0x6E, 0x8A, 0xDC]) t1 = .ok { out := abra.take 10, bitLen := 22, pad := 2 } ∧
    unpack Config.hw (bytes [0x03, 0x6E, 0x8A, 0xDC]) t1 = .error .corruptStream ∧
    unpack Config.hw (bytes [0x00, 0x00]) t1 = .error .corruptStream ∧
    unpack Config.hw (bytes [0x09, 0x00]) t1 = .error .corruptStream ∧
    unpack Config.hw (bytes [0x08]) t1 = .error .corruptStream ∧
    unpack Config.hw (bytes [0x04, 0x60]) t2 = .ok { out := bytes [0x61, 0x63, 0x63, 0x61], bitLen := 4, pad := 4 } := by
  decide +kernel

/-! ### Commands, one step each (2.11) -/

/-- V-K17. -/
theorem test_nop_K17 : regs (ran 0 { State.reset with ilen := 9, clen := 7 }) = [0, 2, 0, 9, 7, 0, 0, 0, 0, 0, 0] := by
  decide +kernel

/-- V-K1. -/
theorem test_compress_K1 : regs (ran 1 (loaded abra)) = [0, 2, 0, 11, 33, 4, 11, 5, 23, 1, 11] ∧
    (ran 1 (loaded abra)).memRead .obuf 0 4 = p1 ∧ (ran 1 (loaded abra)).memRead .cbuf 0 33 = s1 := by decide +kernel

/-- V-K6: `CLEN` was zeroed at acceptance. -/
theorem test_compress_K6 : regs (ran 1 { loaded (bytes [0x20, 0x0A, 0x09]) with clen := 7 }) =
    [0, 4, 1, 3, 0, 0, 0, 0, 0, 0, 0] := by decide +kernel

/-- V-K9. -/
theorem test_decompress_K9 : regs (ran 2 (booked s1 (loaded p1))) = [0, 2, 0, 4, 33, 11, 11, 5, 23, 1, 0] ∧
    (ran 2 (booked s1 (loaded p1))).memRead .obuf 0 11 = abra := by decide +kernel

/-- V-K12, V-K16. -/
theorem test_decompress_K12_K16 :
    regs (ran 2 (booked (s1.take 32) (loaded p1))) = [0, 4, 3, 4, 32, 0, 0, 0, 0, 0, 0] ∧
    regs (ran 2 { State.reset with ilen := 65537 }) = [0, 4, 5, 65537, 0, 0, 0, 0, 0, 0, 0] := by decide +kernel

/-- R156's example. -/
theorem test_clrerr : regs (ran 0x10 { State.reset with err := true, errcode := 1 }) = [0, 2, 0, 0, 0, 0, 0, 0, 0, 0, 0] := by
  decide +kernel

/-- R157's example, V-K19. -/
theorem test_clear : regs (ran 0x11 { State.reset with err := true, errcode := 4, ilen := 4, clen := 7 }) =
    [0, 0, 0, 0, 0, 0, 0, 0, 0, 0, 0] := by decide +kernel

/-- V-K20, V-K21. -/
theorem test_reserved : regs (ran 3 { State.reset with ilen := 9, clen := 7 }) = [0, 4, 6, 9, 7, 0, 0, 0, 0, 0, 0] ∧
    regs (ran 0x101 (loaded (bytes [0x61, 0x62]))) = [0, 4, 6, 2, 0, 0, 0, 0, 0, 0, 0] := by decide +kernel

/-! ### Host accesses (2.12) -/

/-- V-H1, V-H2, V-H5: stored as written; dropped; no such register. -/
theorem test_host_registers : regs (State.reset.hostWriteReg 3 0xFFFFFFFF) = [0, 0, 0, 0xFFFFFFFF, 0, 0, 0, 0, 0, 0, 0] ∧
    State.reset.hostWriteReg 5 7 = State.reset ∧ State.reset.hostWriteReg 11 1 = State.reset ∧
    State.reset.hostReadReg 11 = 0 := by decide +kernel

/-- V-H6, V-H7, V-H9. -/
theorem test_host_buffers : (State.reset.hostWriteBuf Config.hw .ibuf 0 0x41).hostReadBuf Config.hw .ibuf 0 = 0x41 ∧
    State.reset.hostWriteBuf Config.hw .ibuf 65536 0x41 = State.reset ∧ State.reset.hostReadBuf Config.hw .ibuf 65536 = 0 ∧
    (State.reset.hostWriteBuf Config.hw .cbuf 66303 0x0A).hostReadBuf Config.hw .cbuf 66303 = 0x0A ∧
    State.reset.hostReadBuf Config.hw .cbuf 66304 = 0 := by decide +kernel

/-- V-H10: a pending command. -/
theorem test_host_busy : let s := (loaded abra).hostWriteReg 0 1
    s.hostReadReg 1 = 1 ∧ s.hostReadReg 3 = 0 ∧ s.hostReadBuf Config.hw .ibuf 0 = 0 ∧ s.hostWriteReg 3 1 = s ∧
    s.hostWriteBuf Config.hw .ibuf 0 0x7A = s ∧ s.hostWriteReg 0 0x11 = s := by decide +kernel

/-- The notation of R71 and R72: `load`, `run`, `move`. -/
theorem test_script : scriptLoad .cbuf (bytes [0x36, 0x31]) =
      [.writeBuf .cbuf 0 0x36, .writeBuf .cbuf 1 0x31, .writeReg 4 2] ∧
    scriptRun .clear = [.writeReg 0 0x11, .engine, .readReg 1] ∧
    scriptMove (bytes [0x04]) = [.readReg 5, .readBuf .obuf 0, .writeBuf .ibuf 0 0x04, .writeReg 3 1] := by decide +kernel

/-! ### Witnesses: for each obligation with hypotheses, inputs that meet them, clause by clause -/

/-- A command word accepted and not yet executed. -/
def pending (w : Word) (s : State) : State := s.accept w

/-- The state after a `COMPRESS` of "abracadabra" (V-K1). -/
def done1 : State := ran 1 (loaded abra)

theorem witness_DecodeEncodeAgree : (∀ i, (0x00000003#32 : Word) ≠ encode i) ∧ (∀ i, (0x000000FF#32 : Word) ≠ encode i) ∧
    (∀ i, (0x00000100#32 : Word) ≠ encode i) ∧ (0x000000FF#32 : Word).toNat < 256 ∧ 256 ≤ (0x00000100#32 : Word).toNat :=
  ⟨fun i => by cases i <;> decide, fun i => by cases i <;> decide, fun i => by cases i <;> decide, by decide, by decide⟩

/-- A reset that finds a pending command. -/
theorem witness_HardwareResetFromAnyState : ∃ s : State, s.busy = true ∧ s.script = [.hardReset, .engine] :=
  ⟨plan [.hardReset, .engine] (pending 1 (loaded abra)), by decide +kernel⟩

theorem witness_StepRunsLatchedCommand :
    (∃ s : State, s.busy = true ∧ decodeWord s.opc = .ok .compress ∧ s.script = []) ∧
    (∃ s : State, s.busy = true ∧ decodeWord s.opc = .ok .nop ∧ s.script = [.engine]) ∧
    ∃ s : State, s.busy = false ∧ s.script = [.engine] :=
  ⟨⟨pending 1 (loaded abra), by decide +kernel⟩, ⟨plan [.engine] (pending 0 .reset), by decide +kernel⟩,
    ⟨plan [.engine] .reset, by decide +kernel⟩⟩

/-- Host accesses alone, and host accesses before the engine's turn. -/
theorem witness_PendingCommandIsExecuted : ∀ rest ∈ [[], [Event.engine, .readReg 1]], ∃ s : State, s.busy = true ∧
    s.opc = encode .compress ∧ s.script = [.readReg 1, .writeBuf .ibuf 0 0x78] ++ rest ∧
    ∀ e ∈ [Event.readReg 1, .writeBuf .ibuf 0 0x78], e ≠ .engine ∧ e ≠ .hardReset :=
  fun rest _ => ⟨plan ([.readReg 1, .writeBuf .ibuf 0 0x78] ++ rest) (pending 1 (loaded abra)), rfl, rfl, rfl, by decide⟩

theorem witness_ReservedWordFails : ∃ s : State, s.busy = true ∧ (∀ i, s.opc ≠ encode i) ∧ s.script = [.engine] :=
  ⟨plan [.engine] (pending 0x101 (loaded abra)), by decide +kernel, fun i => by cases i <;> decide +kernel, by decide +kernel⟩

theorem witness_NonWorkCommandsKeepBuffers : exec .nop done1 = .next done1.complete ∧
    exec .clrerr done1 = .next done1.acknowledge.complete ∧ exec .clear done1 = .next done1.clearRegisters := ⟨rfl, rfl, rfl⟩

/-- Of `CompressDelivers` and `CompressNeverOverflows`. -/
theorem witness_CompressDelivers : (loaded abra).ilen.toNat ≤ Config.hw.inCap ∧
    trim Config.hw (loaded abra).inputBytes ≠ [] ∧
    ((build (countSymbols (trim Config.hw (loaded abra).inputBytes))).map fun r =>
      decide ((concatCodes abra (genCodes r).ct).length / 8 + 2 ≤ Config.hw.outCap)) = some true := by decide +kernel

/-- Of `CompressResultRelations`, and of the success clause of `CompressFrame`. -/
theorem witness_CompressResultRelations : ∃ s t : State, exec .compress s = .next t ∧ t.done = true :=
  ⟨loaded abra, _, rfl, by decide +kernel⟩

theorem witness_CompressFrame_failure : ∃ s t : State, exec .compress s = .next t ∧ t.done = false :=
  ⟨loaded [], _, rfl, by decide +kernel⟩

/-- The least refused length, and the empty text. -/
theorem witness_CompressRaises : (∃ s : State, s.ilen = 65537 ∧ Config.hw.inCap < s.ilen.toNat) ∧
    ∃ s : State, s.ilen.toNat ≤ Config.hw.inCap ∧ trim Config.hw s.inputBytes = [] :=
  ⟨⟨{ State.reset with ilen := 65537 }, by decide +kernel⟩, ⟨loaded (bytes [0x20, 0x0A, 0x09]), by decide +kernel⟩⟩

theorem witness_CompressStoresResults : ∃ s t : State, ∃ r : Compressed, exec .compress s = .next t ∧
    s.ilen.toNat ≤ Config.hw.inCap ∧ compressText Config.hw s.inputBytes = .ok r :=
  ⟨loaded abra, _, { packed := { stream := p1, bitLen := 23, pad := 1 }, artifact := s1, symLen := 11, nsym := 5, rootFreq := 11 },
    rfl, by decide +kernel, by decide +kernel⟩

/-- Two states that agree on the text and differ elsewhere. -/
theorem witness_CompressDependsOnTextOnly : ∃ s₁ s₂ : State, s₁ ≠ s₂ ∧ s₁.ilen = s₂.ilen ∧
    ∀ off, off < s₁.ilen.toNat → s₁.byte .ibuf off = s₂.byte .ibuf off :=
  ⟨{ loaded abra with ilen := 2 }, { loaded (abra.take 2) with obuf := hold p1, slen := 7 }, by decide +kernel, by decide +kernel,
    by decide +kernel⟩

theorem witness_DecompressDelivers : ∃ (s : State) (t : RevTable) (u : Unpacked), s.ilen.toNat ≤ Config.hw.inCap ∧
    s.clen.toNat ≤ Config.cbCap ∧ (cbLoad s.codebookBytes).toOption = some t ∧ unpack Config.hw s.inputBytes t = .ok u :=
  ⟨booked s1 (loaded p1), t1, { out := abra, bitLen := 23, pad := 1 }, by decide +kernel, by decide +kernel, by decide +kernel,
    by decide +kernel⟩

theorem witness_DecompressEmitsSymbols : ∃ (s : State) (t : RevTable) (es : List Entry) (p : Byte) (rest : Bytes),
    (s.ilen.toNat ≤ Config.hw.inCap ∧ s.clen.toNat ≤ Config.cbCap ∧ t ≠ [] ∧ t.wf = true ∧ t.codesApart = true) ∧
    (s.codebookBytes = cbSer t ∧ s.inputBytes = p :: rest ∧ headerWf p = true ∧ rest ≠ []) ∧ (∀ e ∈ es, e ∈ t) ∧
    (bytesToBits rest).take (8 * rest.length - p.toNat) = es.flatMap Prod.fst :=
  ⟨booked s1 (loaded (bytes [0x04, 0x40])), t1, [(bits [0], 0x61), (bits [1, 0, 0], 0x63)], 0x04, bytes [0x40],
    by decide +kernel, by decide +kernel, by decide +kernel, by decide +kernel⟩

theorem witness_DecompressRaises :
    (∃ s : State, s.ilen = 65537 ∧ Config.hw.inCap < s.ilen.toNat) ∧ (∃ s : State, s.clen = 66305 ∧ Config.cbCap < s.clen.toNat) ∧
    (∃ s : State, s.ilen.toNat ≤ Config.hw.inCap ∧ s.clen.toNat ≤ Config.cbCap ∧ cbLoad s.codebookBytes = .error .codebookFormat) ∧
    ∃ s : State, s.ilen.toNat ≤ Config.hw.inCap ∧ s.clen.toNat ≤ Config.cbCap ∧ (cbLoad s.codebookBytes).toOption = some t1 ∧
      unpack Config.hw s.inputBytes t1 = .error .corruptStream :=
  ⟨⟨{ State.reset with ilen := 65537 }, by decide +kernel⟩, ⟨{ State.reset with clen := 66305 }, by decide +kernel⟩,
    ⟨booked (s1.take 32) (loaded p1), by decide +kernel, by decide +kernel, rfl⟩,
    ⟨booked s1 (loaded (bytes [0x09, 0x00])), by decide +kernel⟩⟩

theorem witness_DecompressFrame : (∃ s t : State, exec .decompress s = .next t ∧ t.done = true) ∧
    ∃ s t : State, exec .decompress s = .next t ∧ t.done = false :=
  ⟨⟨booked s1 (loaded p1), _, rfl, by decide +kernel⟩, ⟨loaded p1, _, rfl, by decide +kernel⟩⟩

/-- Program P2: the host has moved `OBUF` to `IBUF`. -/
theorem witness_CompressThenDecompress : ∃ s t u : State, exec .compress s = .next t ∧ t.done = true ∧
    t.olen.toNat ≤ Config.hw.inCap ∧ u.ilen = t.olen ∧ u.inputBytes = t.memRead .obuf 0 t.olen.toNat ∧ u.clen = t.clen ∧
    u.codebookBytes = t.codebookBytes :=
  ⟨loaded abra, (loaded abra).compress Config.hw, { (loaded abra).compress Config.hw with ibuf := hold p1, ilen := 4 }, rfl,
    by decide +kernel, by decide +kernel, by decide +kernel,
    by decide +kernel, by decide +kernel, by decide +kernel⟩

/-- The clause of each register number, the last one at its least number. -/
theorem witness_IdleRegisterReads : ∀ n ∈ [0, 1, 2, 3, 4, 5, 6, 7, 8, 9, 10, 11], ∃ s : State, s.busy = false ∧
    s.script = [.readReg n] :=
  fun n _ => ⟨plan [.readReg n] done1, (by decide +kernel : done1.busy = false), rfl⟩

theorem witness_IdleRegisterWrites : ∀ n ∈ [1, 2, 3, 4, 5, 10, 11], ∃ s : State, s.busy = false ∧ s.script = [.writeReg n 9] :=
  fun n _ => ⟨plan [.writeReg n 9] done1, (by decide +kernel : done1.busy = false), rfl⟩

/-- The last offset in range and the first one outside it. -/
theorem witness_IdleBufferReads : (∃ s : State, s.busy = false ∧ s.script = [.readBuf .ibuf 65535] ∧ 65535 < Config.hw.cap .ibuf) ∧
    ∃ s : State, s.busy = false ∧ s.script = [.readBuf .ibuf 65536] ∧ Config.hw.cap .ibuf ≤ 65536 :=
  ⟨⟨plan [.readBuf .ibuf 65535] done1, by decide +kernel⟩, ⟨plan [.readBuf .ibuf 65536] done1, by decide +kernel⟩⟩

theorem witness_IdleBufferWrites :
    (∃ s : State, s.busy = false ∧ s.script = [.writeBuf .cbuf 66303 0x0A] ∧ Buf.cbuf ≠ .obuf ∧ 66303 < Config.hw.cap .cbuf) ∧
    (∃ s : State, s.busy = false ∧ s.script = [.writeBuf .obuf 0 0xEE]) ∧
    ∃ s : State, s.busy = false ∧ s.script = [.writeBuf .cbuf 66304 0x0A] ∧ Config.hw.cap .cbuf ≤ 66304 :=
  ⟨⟨plan [.writeBuf .cbuf 66303 0x0A] done1, by decide +kernel⟩, ⟨plan [.writeBuf .obuf 0 0xEE] done1, by decide +kernel⟩,
    ⟨plan [.writeBuf .cbuf 66304 0x0A] done1, by decide +kernel⟩⟩

theorem witness_BusyAccesses : ∀ e ∈ [Event.readReg 1, .readReg 3, .writeReg 0 0x11, .readBuf .ibuf 0, .writeBuf .ibuf 0 0x78],
    ∃ s : State, s.busy = true ∧ s.script = [e] :=
  fun e _ => ⟨plan [e] (pending 1 (loaded abra)), rfl, rfl⟩

/-- Accepted: idle, and `CLRERR` in the error state; dropped: in the error state, and while busy. -/
theorem witness_CommandAcceptance :
    (∀ w ∈ [0x00000000#32, 0x00000001#32, 0x00000002#32, 0x00000003#32], ∃ s : State, s.busy = false ∧ s.err = false ∧
      s.script = [.writeReg 0 w]) ∧
    (∃ s : State, s.busy = false ∧ s.err = true ∧ s.script = [.writeReg 0 0x00000010#32]) ∧
    (∃ s : State, s.busy = false ∧ s.err = true ∧ s.script = [.writeReg 0 0x00000001#32]) ∧
    ∃ s : State, s.busy = true ∧ s.script = [.writeReg 0 0x00000011#32] :=
  ⟨fun w _ => ⟨plan [.writeReg 0 w] .reset, rfl, rfl, rfl⟩,
    ⟨plan [.writeReg 0 0x10] (ran 1 .reset), by decide +kernel⟩, ⟨plan [.writeReg 0 1] (ran 1 .reset), by decide +kernel⟩,
    ⟨plan [.writeReg 0 0x11] (pending 1 .reset), by decide +kernel⟩⟩

/-- A pending work command is a legal state. -/
theorem pending_inv (w : Word) (hw : w = 1 ∨ w = 2) : Inv (pending w .reset) := by
  rcases hw with rfl | rfl <;>
  exact ⟨⟨by decide +kernel, by decide +kernel, by decide +kernel⟩, ⟨by decide +kernel, by decide +kernel, by decide +kernel⟩,
    ⟨fun b => by cases b <;> decide +kernel, fun b => by cases b <;> decide +kernel⟩,
    ⟨by decide +kernel, by decide +kernel, by decide +kernel, by decide +kernel, by decide +kernel, by decide +kernel,
      by decide +kernel, by decide +kernel, by decide +kernel⟩⟩

/-- Of the four statements that a step keeps an invariant: the engine's turn at a pending `COMPRESS`, which fails. -/
theorem witness_StepKeepsInvariant : ∃ s t : State, Inv s ∧ s.busy = true ∧ step s = .next t ∧ t.err = true :=
  ⟨pending 1 .reset, _, pending_inv 1 (.inl rfl), by decide +kernel, rfl, by decide +kernel⟩

theorem witness_FailedWorkDeliversNothing : ∀ i, i = .compress ∨ i = .decompress → ∃ s t : State, Inv s ∧ s.busy = true ∧
    s.opc = encode i ∧ exec i s = .next t ∧ t.err = true := by
  rintro i (rfl | rfl)
  · exact ⟨pending 1 .reset, _, pending_inv 1 (.inl rfl), by decide +kernel, by decide +kernel, rfl, by decide +kernel⟩
  · exact ⟨pending 2 .reset, _, pending_inv 2 (.inr rfl), by decide +kernel, by decide +kernel, rfl, by decide +kernel⟩

/-- The error state meets a host access, a pending `CLRERR` and a reset. -/
theorem witness_ErrorIsSticky : (∃ s t : State, step s = .next t ∧ s.err = true ∧ FlagsLegal s ∧ t.err = true) ∧
    (∃ s t : State, step s = .next t ∧ s.err = true ∧ t.err = false ∧ s.opc = encode .clrerr) ∧
    ∃ s t : State, step s = .next t ∧ s.err = true ∧ t.err = false ∧ s.script = [.hardReset] :=
  ⟨⟨plan [.writeReg 0 1] (ran 1 .reset), _, rfl, by decide +kernel, ⟨by decide +kernel, by decide +kernel, by decide +kernel⟩,
      by decide +kernel⟩,
    ⟨pending 0x10 (ran 1 .reset), _, rfl, by decide +kernel, by decide +kernel, by decide +kernel⟩,
    ⟨plan [.hardReset] (ran 1 .reset), _, rfl, by decide +kernel, by decide +kernel, by decide +kernel⟩⟩

theorem witness_OnlyHostWritesInput : ∃ s t : State, step s = .next t ∧ t.byte .ibuf 0 ≠ s.byte .ibuf 0 :=
  ⟨plan [.writeBuf .ibuf 0 0x78] (loaded abra), _, rfl, by decide +kernel⟩

theorem witness_OnlyWorkCommandsWriteOutput : ∃ s t : State, step s = .next t ∧ t.byte .obuf 0 ≠ s.byte .obuf 0 :=
  ⟨pending 1 { loaded abra with obuf := hold (bytes [0xEE]) }, _, rfl, by decide +kernel⟩

theorem witness_OnlyHostOrClearWritesIlen : (∃ s t : State, step s = .next t ∧ t.ilen ≠ s.ilen ∧ s.busy = false) ∧
    ∃ s t : State, step s = .next t ∧ t.ilen ≠ s.ilen ∧ s.busy = true :=
  ⟨⟨plan [.writeReg 3 4] (loaded abra), _, rfl, by decide +kernel, by decide +kernel⟩,
    ⟨pending 0x11 (loaded abra), _, rfl, by decide +kernel, by decide +kernel⟩⟩

theorem witness_StatusAndErrcodeFields : (3 : Nat) ≤ 31 ∧ (3 : Nat) < 4 ∧ (4 : Nat) ≤ 31 := by decide

theorem witness_BitsBytesInverse : (bits [0, 1, 1, 0, 1, 1, 1, 0]).length % 8 = 0 ∧ p1[3]? = some 0xDC := by decide +kernel

theorem witness_TrimRemovesWhitespaceSuffix : (trim Config.hw (bytes [0x61, 0x20])).getLast? = some 0x61 := by decide +kernel

theorem witness_AnalyzeCounts : abra ≠ [] := by decide +kernel

theorem witness_TreeIgnoresInputOrder : (abra.Perm abra.reverse) ∧ abra ≠ abra.reverse.tail :=
  ⟨(List.reverse_perm abra).symm, by decide +kernel⟩

theorem witness_ExtractMinTakesLeast : ∃ pq : Queue, pq ≠ [] ∧
    extractMin pq = some (.leaf 0x61 1, [.leaf 0x62 1, .leaf 0x60 2]) :=
  ⟨[.leaf 0x62 1, .leaf 0x60 2, .leaf 0x61 1], by decide +kernel⟩

/-- One distinct Symbol, and two. -/
theorem witness_BuildTreeShape : (bytes [0x61]) ≠ [] ∧ (bytes [0x61]).dedup.length = 1 ∧ (bytes [0x61, 0x62]) ≠ [] ∧
    2 ≤ (bytes [0x61, 0x62]).dedup.length := by decide +kernel

theorem witness_InternalFrequenciesRise : ∃ (S : Bytes) (root : HuffNode), build (countSymbols S) = some root ∧
    (256, 2, 0x63, 0x64) ∈ root.slots ∧ (259, 11, 0x61, 258) ∈ root.slots :=
  ⟨abra, (build (countSymbols abra)).getD (.leaf 0 0), by decide +kernel, by decide +kernel, by decide +kernel⟩

theorem witness_TablesMutuallyInverse : ∃ root : HuffNode, root.symbols.Nodup ∧ root.symbols.length = 2 :=
  ⟨.internal 256 2 (.leaf 0x61 1) (.leaf 0x62 1), by decide +kernel⟩

theorem witness_CodeSetComplete : ∃ P : BitString, (HuffNode.internal 256 2 (.leaf 0x61 1) (.leaf 0x62 1)).depth ≤ P.length :=
  ⟨[true], by decide +kernel⟩

/-- A Symbol without a code; a stream one byte too long; a stream that just fits. -/
theorem witness_PackOutcome : (∃ x ∈ (abra), (fun _ => [] : CodeTable) x = []) ∧
    (∃ P : Params, (∀ x ∈ (bytes [0x61]), (fun _ => [false] : CodeTable) x ≠ []) ∧
      P.outCap < ((bytes [0x61]).flatMap (fun _ => [false] : CodeTable)).length / 8 + 2) ∧
    ∃ P : Params, (∀ x ∈ (bytes [0x61]), (fun _ => [false] : CodeTable) x ≠ []) ∧
      ((bytes [0x61]).flatMap (fun _ => [false] : CodeTable)).length / 8 + 2 ≤ P.outCap :=
  ⟨⟨0x61, by decide +kernel, rfl⟩, ⟨{ Config.hw with outCap := 1 }, by decide +kernel, by decide +kernel⟩,
    ⟨{ Config.hw with outCap := 2 }, by decide +kernel, by decide +kernel⟩⟩

theorem witness_PackStreamFormat : ∃ (S : Bytes) (ct : CodeTable) (pk : Packed), pack Config.hw S ct = .ok pk :=
  ⟨bytes [0x61], fun _ => [false], { stream := bytes [0x07, 0x00], bitLen := 1, pad := 7 }, by decide +kernel⟩

theorem witness_LoadSerialized : t1 ≠ [] ∧ t1.wf = true ∧ RevTable.wf [(zeros 255, 0x2C)] = true := by decide +kernel

theorem witness_LoaderAcceptsOnlyArtifacts : (cbLoad s1).toOption = some t1 ∧ cbLoad (s1.take 32) = .error .codebookFormat :=
  ⟨by decide +kernel, rfl⟩

/-- Headers 0 and 9; then, at headers 1 and 8, the three outcomes of the walk (V-U4, and one Symbol above and at `OUT_CAP`). -/
theorem witness_UnpackOutcome : headerWf 0x00 = false ∧ headerWf 0x09 = false ∧ headerWf 0x01 = true ∧ headerWf 0x08 = true ∧
    (bytes [0x6E, 0x8A, 0xDC]) ≠ [] ∧ (walk t1 ((bytesToBits (bytes [0x6E, 0x8A, 0xDC])).take (8 * 3 - 3)) [] []).2 ≠ [] ∧
    (walk t1 ((bytesToBits (bytes [0x6E, 0x00])).take (8 * 2 - 8)) [] []).2 = [] ∧
    (walk t1 ((bytesToBits (bytes [0x6E, 0x00])).take (8 * 2 - 8)) [] []).1.length = 4 ∧
    (∃ P : Params, P.outCap < 4) ∧ ∃ P : Params, 4 ≤ P.outCap :=
  ⟨by decide, by decide, by decide, by decide, by decide +kernel, by decide +kernel, by decide +kernel, by decide +kernel,
    ⟨{ Config.hw with outCap := 3 }, by decide⟩, ⟨{ Config.hw with outCap := 4 }, by decide⟩⟩

theorem witness_LongerMatchNeverEmitted : ∃ e f : Entry, t2.wf = true ∧ e ∈ t2 ∧ f ∈ t2 ∧ e ≠ f ∧ f.1 <+: e.1 :=
  ⟨(bits [0, 1], 0x62), (bits [0], 0x61), by decide +kernel⟩

/-- Its first clause, at a table that is not prefix-free; its second, at one that is. -/
theorem witness_WalkDecodesConcatenation : t2.wf = true ∧
    ∃ es : List Entry, es.length = 2 ∧ t1.wf = true ∧ t1.codesApart = true ∧ ∀ e ∈ es, e ∈ t1 :=
  ⟨by decide +kernel, [(bits [0], 0x61), (bits [1, 0, 0], 0x63)], by decide +kernel⟩

theorem witness_UnpackPackRoundTrip : ∃ (S : Bytes) (root : HuffNode) (pk : Packed), build (countSymbols S) = some root ∧
    pack Config.hw S (genCodes root).ct = .ok pk ∧ S.length ≤ Config.hw.outCap :=
  ⟨bytes [0x61, 0x61], .leaf 0x61 2, { stream := bytes [0x06, 0x00], bitLen := 2, pad := 6 }, by decide +kernel, by decide +kernel,
    by decide +kernel⟩

theorem witness_UnpackNeverOverflows : 8 * Config.hw.inCap ≤ Config.hw.outCap ∧ p1.length ≤ Config.hw.inCap := by decide +kernel

end Sys2Proof.Tests
end

section
/-! The stage functions' bounds: what a successful `COMPRESS` or `DECOMPRESS` delivers fits the buffers and the registers of
10_state.md R17 to R26, and which error kinds the two compositions can raise (60_exceptions.md R171 to R175). -/

namespace Sys2Proof.Machine

/-! ### The tree -/

theorem HuffNode.depth_lt_symbols (n : HuffNode) : n.depth < n.symbols.length := by
  induction n with
  | leaf s f => exact Nat.one_pos
  | internal i f l r ihl ihr => simp only [HuffNode.depth, HuffNode.symbols, List.length_append]; omega

/-- The Symbols of a queue's leaves, node after node. -/
abbrev Queue.symbols (pq : Queue) : Bytes := pq.flatMap HuffNode.symbols

theorem initialQueue_symbols (ft : FreqTable) : (initialQueue ft).symbols = ft.domain := by
  simp [Queue.symbols, initialQueue, List.flatMap_map, HuffNode.symbols]

theorem initialQueue_freqs (ft : FreqTable) : (initialQueue ft).map HuffNode.freq = ft.domain.map ft := by
  simp [initialQueue, HuffNode.freq]

/-- The leaves of the tree are the text's distinct Symbols, and its root counts every Symbol of the text (R94, R96). -/
theorem build_symbols_freq {S : Bytes} (hS : S ≠ []) {root : HuffNode} (h : build (countSymbols S) = some root) :
    root.symbols.Perm S.dedup ∧ root.freq = S.length := by
  obtain ⟨root', hroot, hsym, hfreq⟩ := build_induction S hS
    (fun _ pq => pq.symbols.Perm S.dedup ∧ (pq.map HuffNode.freq).sum = S.length)
    ⟨initialQueue_symbols _ ▸ domain_perm_dedup S, by rw [initialQueue_freqs, sum_domain]⟩
    (by
      rintro k pq a b rest ⟨hsym, hfreq⟩ hm
      constructor
      · rw [show Queue.symbols (mergeNode k a b :: rest) = Queue.symbols (a :: b :: rest) by
          simp [Queue.symbols, mergeNode, HuffNode.symbols]]
        exact (hm.perm.flatMap_right _).trans hsym
      · rw [← hfreq, ← (hm.perm.map _).sum_eq]
        simp [mergeNode, HuffNode.freq, Nat.add_assoc])
  obtain rfl : root' = root := Option.some.inj (hroot.symm.trans h)
  exact ⟨by simpa [Queue.symbols] using hsym, by simpa using hfreq⟩

theorem length_le_of_nodup {l : Bytes} (h : l.Nodup) : l.length ≤ 256 := by
  have := (h.subperm (l₂ := allSymbols) fun x _ => mem_allSymbols x).length_le
  simpa [allSymbols] using this

/-- With distinct leaves, every leaf's Symbol has a code. -/
theorem genCodes_ct_ne_nil {root : HuffNode} (hn : root.symbols.Nodup) {x : Byte} (hx : x ∈ root.symbols) :
    (genCodes root).ct x ≠ [] := by
  rw [← genCodes_snd root] at hx
  obtain ⟨e, he, rfl⟩ := List.mem_map.1 hx
  rw [genCodes_ct_of_mem root hn he]
  exact genCodes_ne_nil root e he

/-- Every Symbol of the text has a code in the table made from it (R111 never applies to it). -/
theorem genCodes_covers {S : Bytes} (hS : S ≠ []) {root : HuffNode} (h : build (countSymbols S) = some root) :
    ∀ x ∈ S, (genCodes root).ct x ≠ [] := by
  have hsym := (build_symbols_freq hS h).1
  exact fun x hx => genCodes_ct_ne_nil (hsym.nodup_iff.2 (List.nodup_dedup S)) (hsym.mem_iff.2 (List.mem_dedup.2 hx))

/-! ### The artifact -/

theorem lineBody_length (e : Entry) : (lineBody e).length = e.1.length + 3 := by
  simp [lineBody, symbolField_length]; omega

theorem cbSer_length_le (t : RevTable) (k : Nat) (h : ∀ e ∈ t, e.1.length ≤ k) : (cbSer t).length ≤ t.length * (k + 4) := by
  induction t with
  | nil => simp [cbSer]
  | cons e t ih =>
    obtain ⟨he, ht⟩ := List.forall_mem_cons.1 h
    have hcons : (cbSer (e :: t)).length = (e.1.length + 4) + (cbSer t).length := by
      simp [cbSer, lineBody_length]; omega
    calc (cbSer (e :: t)).length
        ≤ (k + 4) + t.length * (k + 4) := by rw [hcons]; exact Nat.add_le_add (by omega) (ih ht)
      _ = (e :: t).length * (k + 4) := by rw [List.length_cons, Nat.succ_mul, Nat.add_comm]

/-- The artifact of a tree with distinct leaves fits `CBUF`: at most 256 lines of at most 259 bytes (R6, `CB_CAP`). -/
theorem cbSer_genCodes_length_le {root : HuffNode} (hn : root.symbols.Nodup) :
    (cbSer (genCodes root).rct).length ≤ Config.cbCap := by
  have h256 := length_le_of_nodup hn
  have hdepth := root.depth_lt_symbols
  have hcodes : ∀ e ∈ (genCodes root).rct, e.1.length ≤ 255 := fun e he => by
    have := genCodes_length_le root e he
    omega
  have hlen : (genCodes root).rct.length ≤ 256 := by simpa [← genCodes_snd root] using h256
  calc (cbSer (genCodes root).rct).length
      ≤ (genCodes root).rct.length * (255 + 4) := cbSer_length_le _ _ hcodes
    _ ≤ 256 * (255 + 4) := Nat.mul_le_mul_right _ hlen
    _ = Config.cbCap := rfl

/-! ### The packer -/

/-- Whole bytes of bits become that many bytes (R44). -/
theorem bitsToBytes_length {B : BitString} {n : Nat} (h : B.length = 8 * n) : (bitsToBytes B).length = n := by
  have : 8 * (bitsToBytes B).length = B.length :=
    wholeBytes_induction (fun B => 8 * (bitsToBytes B).length = B.length) rfl
      (fun b7 b6 b5 b4 b3 b2 b1 b0 r ih => by simp only [bitsToBytes_eight, List.length_cons]; omega) n B h
  omega

/-- The bits of a stream are whole bytes: the header's, the payload's, and the one the padding completes (R63, R114). -/
theorem streamBits_length (B : BitString) : (streamBits B).length = 8 * (B.length / 8 + 2) := by
  simp only [streamBits, header, padding, List.length_append, byteBits_length, List.length_replicate]
  omega

theorem length_le_concatCodes {S : Bytes} {ct : CodeTable} (h : ∀ x ∈ S, ct x ≠ []) : S.length ≤ (concatCodes S ct).length := by
  induction S with
  | nil => exact Nat.zero_le _
  | cons x S ih =>
    obtain ⟨hx, hS⟩ := List.forall_mem_cons.1 h
    have := ih hS
    have := List.length_pos_iff.2 hx
    rw [concatCodes, List.flatMap_cons, ← concatCodes, List.length_append, List.length_cons]
    omega

/-- `Pack` of a text whose Symbols all have codes: the capacity decides (R111, R116). -/
theorem pack_of_covered {P : Params} {S : Bytes} {ct : CodeTable} (h : ∀ x ∈ S, ct x ≠ []) :
    pack P S ct = if P.outCap < (streamBits (concatCodes S ct)).length / 8 then .error .capacity
      else .ok { stream := bitsToBytes (streamBits (concatCodes S ct)), bitLen := (concatCodes S ct).length,
                 pad := padding (concatCodes S ct).length } := by
  have : (S.any fun x => (ct x).isEmpty) = false := by simpa using h
  simp [pack, this]

/-! ### What the work commands deliver -/

/-- What either work command delivers: the bytes of `OBUF` and the numbers of R18 to R21. -/
structure Delivery where
  out : Bytes
  symLen : Nat
  nsym : Nat
  bitLen : Nat
  pad : Nat

/-- The words of `OLEN`, `SLEN`, `NSYM`, `BITLEN` and `PAD`. -/
def Delivery.registers (d : Delivery) : Word × Word × Word × Word × Word :=
  (BitVec.ofNat 32 d.out.length, BitVec.ofNat 32 d.symLen, BitVec.ofNat 32 d.nsym, BitVec.ofNat 32 d.bitLen, BitVec.ofNat 32 d.pad)

def Compressed.delivery (r : Compressed) : Delivery where
  out := r.packed.stream
  symLen := r.symLen
  nsym := r.nsym
  bitLen := r.packed.bitLen
  pad := r.packed.pad

def Decompressed.delivery (r : Decompressed) : Delivery where
  out := r.unpacked.out
  symLen := r.unpacked.out.length
  nsym := r.nsym
  bitLen := r.unpacked.bitLen
  pad := r.unpacked.pad

/-- The bounds of R17 to R21 and R25; the last one says that no number is cut off by its register. -/
structure Delivery.Bounded (d : Delivery) : Prop where
  out_le : d.out.length ≤ Config.hw.outCap
  nsym_le : d.nsym ≤ Config.nsymMax
  pad_le : d.pad ≤ 8
  symLen_le : d.symLen ≤ d.bitLen
  bitLen_le : d.bitLen ≤ 8 * Config.hw.outCap

theorem compressText_bounded {X : Bytes} {r : Compressed} (h : compressText Config.hw X = .ok r) : r.delivery.Bounded := by
  obtain ⟨hS, root, pk, hroot, hpack, rfl⟩ := compressText_ok h
  have hcov := genCodes_covers hS hroot
  rw [pack_of_covered hcov, streamBits_length] at hpack
  split at hpack
  · cases hpack
  · next hcap =>
    cases hpack
    have hlen := bitsToBytes_length (streamBits_length (concatCodes (trim Config.hw X) (genCodes root).ct))
    exact {
      out_le := by simp only [Compressed.delivery, hlen]; omega
      nsym_le := domain_length_le _
      pad_le := Nat.sub_le _ _
      symLen_le := length_le_concatCodes hcov
      bitLen_le := by simp only [Compressed.delivery]; omega }

theorem compressText_artifact_le {P : Params} {X : Bytes} {r : Compressed} (h : compressText P X = .ok r) :
    r.artifact.length ≤ Config.cbCap := by
  obtain ⟨hS, root, pk, hroot, -, rfl⟩ := compressText_ok h
  exact cbSer_genCodes_length_le ((build_symbols_freq hS hroot).1.nodup_iff.2 (List.nodup_dedup _))

/-- R22: the root counts every Symbol of the trimmed text. -/
theorem compressText_rootFreq {P : Params} {X : Bytes} {r : Compressed} (h : compressText P X = .ok r) :
    r.rootFreq = r.symLen := by
  obtain ⟨hS, root, pk, hroot, -, rfl⟩ := compressText_ok h
  exact (build_symbols_freq hS hroot).2

/-- The two kinds `COMPRESS` can raise; a Symbol without a code is never met (R172). -/
theorem compressText_error {P : Params} {X : Bytes} {e : ErrorKind} (h : compressText P X = .error e) :
    e = .emptyInput ∨ e = .capacity := by
  simp only [compressText, analyze] at h
  by_cases hS : trim P X = []
  · rw [if_pos hS] at h
    cases h; exact .inl rfl
  · rw [if_neg hS] at h
    cases hroot : build (countSymbols (trim P X)) with
    | none => simp only [hroot] at h; cases h; exact .inl rfl
    | some root =>
      simp only [hroot, pack_of_covered (genCodes_covers hS hroot)] at h
      by_cases hcap : P.outCap < (streamBits (concatCodes (trim P X) (genCodes root).ct)).length / 8
      · rw [if_pos hcap] at h
        cases h; exact .inr rfl
      · rw [if_neg hcap] at h
        cases h

/-! ### The loader and the unpacker -/

/-- Each loaded line brings a Symbol that was not in the table (R134). -/
theorem loadLines_nodup {lns : List Bytes} {t t' : RevTable} (h : loadLines lns t = .ok t') (ht : (t.map Prod.snd).Nodup) :
    (t'.map Prod.snd).Nodup := by
  induction lns generalizing t with
  | nil => cases h; exact ht
  | cons ln lns ih =>
    rw [loadLines] at h
    split at h
    · cases h
    · next e _ =>
      split at h
      · cases h
      · next hnew =>
        refine ih h ?_
        have hfresh : e.2 ∉ t.map Prod.snd := fun hmem => by
          obtain ⟨f, hf, hfe⟩ := List.mem_map.1 hmem
          exact hnew (by rw [Bool.or_eq_true]; exact .inl (List.any_eq_true.2 ⟨f, hf, beq_iff_eq.2 hfe⟩))
        rw [List.map_append, List.map_singleton]
        exact List.nodup_append.2 ⟨ht, List.nodup_singleton _, by
          rintro x hx y hy rfl
          exact hfresh (List.mem_singleton.1 hy ▸ hx)⟩

theorem cbLoad_length_le {T : Bytes} {t : RevTable} (h : cbLoad T = .ok t) : t.length ≤ 256 := by
  rw [cbLoad] at h
  split at h
  · cases h
  · split at h
    · simpa using length_le_of_nodup (loadLines_nodup h List.nodup_nil)
    · cases h

theorem unpack_bounded {P : Params} {E : Bytes} {t : RevTable} {u : Unpacked} (h : unpack P E t = .ok u) :
    u.out.length ≤ P.outCap ∧ u.pad ≤ 8 ∧ u.out.length ≤ u.bitLen ∧ u.bitLen ≤ 8 * E.length := by
  cases E with
  | nil => cases h
  | cons p rest =>
    simp only [unpack] at h
    split_ifs at h with hp hW hleft hcap
    cases h
    refine ⟨by simpa using hcap, by simp only; omega, walk_length _ _ _, ?_⟩
    simp only [List.length_take, bytesToBits_length, List.length_cons]
    omega

theorem unpack_error {P : Params} {E : Bytes} {t : RevTable} {e : ErrorKind} (h : unpack P E t = .error e) :
    e = .corruptStream ∨ e = .capacity := by
  cases E with
  | nil => cases h; exact .inl rfl
  | cons p rest =>
    simp only [unpack] at h
    split_ifs at h with hp hW hleft hcap
    · cases h; exact .inl rfl
    · cases h; exact .inl rfl
    · cases h; exact .inl rfl
    · cases h; exact .inr rfl

/-! ### `DECOMPRESS` -/

theorem decompressStream_bounded {T E : Bytes} {r : Decompressed} (hE : E.length ≤ Config.hw.outCap)
    (h : decompressStream Config.hw T E = .ok r) : r.delivery.Bounded := by
  obtain ⟨t, u, ht, hu, rfl⟩ := decompressStream_ok h
  obtain ⟨hout, hpad, hbit, hE'⟩ := unpack_bounded hu
  exact ⟨hout, cbLoad_length_le ht, hpad, hbit, hE'.trans (Nat.mul_le_mul_left _ hE)⟩

/-- An admitted `ILEN` bounds the stream, and with it what `DECOMPRESS` delivers. -/
theorem decompress_bounded {s : State} {r : Decompressed} (fits : s.ilen.toNat ≤ Config.hw.inCap)
    (h : decompressStream Config.hw s.codebookBytes s.inputBytes = .ok r) : r.delivery.Bounded := by
  have hcaps : Config.hw.inCap ≤ Config.hw.outCap := by decide
  have hlen : s.inputBytes.length = s.ilen.toNat := State.memRead_length s .ibuf 0 _
  exact decompressStream_bounded (hlen ▸ fits.trans hcaps) h

/-- The three kinds `DECOMPRESS` can raise. -/
theorem decompressStream_error {P : Params} {T E : Bytes} {e : ErrorKind} (h : decompressStream P T E = .error e) :
    e = .codebookFormat ∨ e = .corruptStream ∨ e = .capacity := by
  simp only [decompressStream] at h
  split at h
  · next ht => cases h; exact .inl (cbLoad_error ht)
  · split at h
    · next hu => cases h; exact .inr (unpack_error hu)
    · cases h

end Sys2Proof.Machine
end

section
/-! What one step can do: the changes a step can make to the state, each with the event and the guards that allow it. -/

namespace Sys2Proof.Machine

/-! ### Command words -/

theorem zeroField_append_opcodeField (w : Word) : zeroField w ++ opcodeField w = w := by
  refine BitVec.eq_of_getLsbD_eq fun i hi => ?_
  rw [BitVec.getLsbD_append]
  by_cases h : i < 8
  · simp [opcodeField, h]
  · simp [zeroField, h, show i - 8 < 24 by omega, show 8 + (i - 8) = i by omega]

theorem eq_opcodeOf_of_decodeOpcode {op : Byte} {i : Instr} (h : decodeOpcode op = .ok i) : op = opcodeOf i := by
  simp only [decodeOpcode] at h
  split_ifs at h with h0 h1 h2 h3 h4 <;> cases h <;> assumption

/-- Only its own word decodes to a command (R61, R62). -/
theorem eq_encode_of_decodeWord {w : Word} {i : Instr} (h : decodeWord w = .ok i) : w = encode i := by
  rw [decodeWord] at h
  split at h
  · next hz =>
    rw [← zeroField_append_opcodeField w, hz, eq_opcodeOf_of_decodeOpcode h, encode]
  · cases h

theorem encode_injective : Function.Injective encode := by
  intro i j
  cases i <;> cases j <;> decide

/-! ### Acceptance and buffer bytes -/

/-- Acceptance as one record update (R150). -/
theorem accept_eq (s : State) (w : Word) : s.accept w =
    { s with busy := true, done := false, opc := w
             olen := if isWork w then 0 else s.olen, slen := if isWork w then 0 else s.slen
             nsym := if isWork w then 0 else s.nsym, bitlen := if isWork w then 0 else s.bitlen
             pad := if isWork w then 0 else s.pad, rootfreq := if isWork w then 0 else s.rootfreq
             clen := if w = encode .compress then 0 else s.clen } := by
  by_cases hc : w = encode .compress
  · subst hc; rfl
  · by_cases hd : w = encode .decompress
    · subst hd; rfl
    · simp [accept_other s w hc hd, isWork, hc, hd]

theorem isWork_iff {w : Word} : isWork w = true ↔ w = encode .compress ∨ w = encode .decompress := by
  simp [isWork]

/-- A byte reads the same where the buffer is the same. -/
theorem byte_congr {s t : State} {b : Buf} (h : t.mem b = s.mem b) (off : Nat) : t.byte b off = s.byte b off := by
  simp only [State.byte, h]

/-- A write changes what one byte reads as. -/
theorem byte_setMem_write (s : State) (b b' : Buf) (off off' : Nat) (v : Byte) :
    (s.setMem b ((s.mem b).write off v)).byte b' off' = if b' = b ∧ off' = off then v else s.byte b' off' := by
  by_cases hb : b' = b
  · subst hb
    by_cases ho : off' = off <;> simp [State.byte, State.setMem_mem, Memory.known_write, ho]
  · simp [State.byte, State.setMem_mem, hb]

/-! ### The host's turn -/

theorem step_of_hostEvent {s : State} {e : Event} {rest : List Event} (hs : s.script = e :: rest) (he : e ≠ .engine) :
    step s = .next (State.hostEvent Config.hw { s with script := rest } e) := by
  simp only [step, hs]
  cases e with
  | engine => exact absurd rfl he
  | readReg n => rfl
  | writeReg n w => rfl
  | readBuf b off => rfl
  | writeBuf b off v => rfl
  | hardReset => rfl

theorem hostReadReg_idle {s : State} (hb : s.busy = false) (n : Nat) : s.hostReadReg n = s.readReg n := by
  simp [State.hostReadReg, hb]

theorem readReg_of_eleven_le (s : State) {n : Nat} (h : 11 ≤ n) : s.readReg n = 0 := by
  obtain ⟨k, rfl⟩ := Nat.exists_eq_add_of_le' h
  rfl

/-! ### The step -/

/-- The engine's turn with the command `i` pending (R151). -/
structure State.Executes (s : State) (i : Instr) : Prop where
  turn : s.engineNext
  busy : s.busy = true
  opc : s.opc = encode i

/-- The changes one step can make to the state `s`. -/
inductive StepEffect (s : State) : State → Prop
  /-- A read, a dropped write, or the engine's turn at `BUSY = 0`. -/
  | quiet (as : List Answer) : StepEffect s { s.popped with answers := as }
  | ilenWritten {w : Word} {rest : List Event} (event : s.script = .writeReg 3 w :: rest) (idle : s.busy = false) :
      StepEffect s { s.popped with ilen := w }
  | clenWritten {w : Word} {rest : List Event} (event : s.script = .writeReg 4 w :: rest) (idle : s.busy = false) :
      StepEffect s { s.popped with clen := w }
  | accepted {w : Word} {rest : List Event} (event : s.script = .writeReg 0 w :: rest) (idle : s.busy = false)
      (admitted : s.err = false ∨ w = encode .clrerr ∨ w = encode .clear) : StepEffect s (s.popped.accept w)
  | byteWritten {b : Buf} {off : Nat} {v : Byte} {rest : List Event} (event : s.script = .writeBuf b off v :: rest)
      (idle : s.busy = false) (inRange : off < Config.hw.cap b) (writable : b ≠ .obuf) :
      StepEffect s (s.popped.setMem b ((s.popped.mem b).write off v))
  | reset {rest : List Event} (event : s.script = .hardReset :: rest) : StepEffect s s.popped.hardwareReset
  | nop (exe : s.Executes .nop) : StepEffect s s.popped.complete
  | clrerr (exe : s.Executes .clrerr) : StepEffect s s.popped.acknowledge.complete
  | clear (exe : s.Executes .clear) : StepEffect s s.popped.clearRegisters
  | compressFailed {e : ErrorKind} (exe : s.Executes .compress) (kind : e ≠ .unencodableSymbol) :
      StepEffect s (s.popped.failed e true)
  | compressed {r : Compressed} (exe : s.Executes .compress) (result : compressText Config.hw s.inputBytes = .ok r) :
      StepEffect s (s.popped.deliverCompressed r).complete
  | decompressFailed {e : ErrorKind} (exe : s.Executes .decompress) (kind : e ≠ .unencodableSymbol) :
      StepEffect s (s.popped.failed e false)
  | decompressed {r : Decompressed} (exe : s.Executes .decompress) (fits : s.ilen.toNat ≤ Config.hw.inCap)
      (result : decompressStream Config.hw s.codebookBytes s.inputBytes = .ok r) :
      StepEffect s (s.popped.deliverDecompressed r).complete
  | reservedWord (turn : s.engineNext) (busy : s.busy = true) (reserved : ∃ e, decodeWord s.opc = .error e) :
      StepEffect s (s.popped.raiseError .illegalCommand [])

theorem StepEffect.of_compress {s : State} (exe : s.Executes .compress) : StepEffect s (s.popped.compress Config.hw) := by
  rcases compress_cases Config.hw s.popped with ⟨e, h, hkind⟩ | ⟨r, -, hr, h⟩
  · rw [h]
    refine .compressFailed exe ?_
    rcases hkind with ⟨-, rfl⟩ | ⟨-, he⟩
    · decide
    · rcases compressText_error he with rfl | rfl <;> decide
  · rw [h]
    exact .compressed exe hr

theorem StepEffect.of_decompress {s : State} (exe : s.Executes .decompress) :
    StepEffect s (s.popped.decompress Config.hw) := by
  rcases decompress_cases Config.hw s.popped with ⟨e, h, hkind⟩ | ⟨r, hfits, -, hr, h⟩
  · rw [h]
    refine .decompressFailed exe ?_
    rcases hkind with ⟨-, rfl⟩ | he
    · decide
    · rcases decompressStream_error he with rfl | rfl | rfl <;> decide
  · rw [h]
    exact .decompressed exe hfits hr

theorem StepEffect.of_exec {s t : State} {i : Instr} (exe : s.Executes i) (h : exec i s.popped = .next t) :
    StepEffect s t := by
  cases i with
  | nop => cases h; exact .nop exe
  | compress => cases h; exact .of_compress exe
  | decompress => cases h; exact .of_decompress exe
  | clrerr => cases h; exact .clrerr exe
  | clear => cases h; exact .clear exe

theorem StepEffect.of_hostEvent {s : State} {e : Event} {rest : List Event} (hs : s.script = e :: rest) :
    StepEffect s (s.popped.hostEvent Config.hw e) := by
  have unchanged : StepEffect s s.popped := .quiet s.answers
  cases e with
  | readReg n => exact .quiet _
  | readBuf b off => exact .quiet _
  | engine => exact unchanged
  | hardReset => exact .reset hs
  | writeReg n w =>
    rw [State.hostEvent]
    rcases hostWriteReg_cases s.popped n w with h | ⟨hb, rfl, h⟩ | ⟨hb, rfl, h⟩ | ⟨hb, rfl, hadm, h⟩
    · rw [h]; exact unchanged
    · rw [h]; exact .ilenWritten hs hb
    · rw [h]; exact .clenWritten hs hb
    · rw [h]; exact .accepted hs hb hadm
  | writeBuf b off v =>
    rw [State.hostEvent]
    rcases hostWriteBuf_cases Config.hw s.popped b off v with h | ⟨hb, hr, hw, h⟩
    · rw [h]; exact unchanged
    · rw [h]; exact .byteWritten hs hb hr hw

theorem step_effect {s t : State} (h : step s = .next t) : StepEffect s t := by
  rcases step_cases h with ⟨hn, hb, i, hi, hx⟩ | ⟨hn, hb, he, rfl⟩ | ⟨-, -, rfl⟩ | ⟨e, rest, hs, -, rfl⟩
  · exact .of_exec ⟨hn, hb, eq_encode_of_decodeWord hi⟩ hx
  · exact .reservedWord hn hb he
  · exact .quiet s.answers
  · exact .of_hostEvent hs

end Sys2Proof.Machine
end

section
/-! The invariant of the machine: each of its four parts is kept by every step effect (10_state.md R13, R14, R17 to R26). -/

namespace Sys2Proof.Machine

/-! ### Flags (R13) -/

theorem FlagsLegal.of_idle {t : State} (idle : t.busy = false) (h : t.done = true → t.err = false) : FlagsLegal t where
  busy_not_done hb := absurd hb (by simp [idle])
  done_not_err := h
  busy_err hb := absurd hb (by simp [idle])

/-- Only `CLRERR` and `CLEAR` are ever pending in the error state. -/
theorem FlagsLegal.err_of_executes {s : State} {i : Instr} (h : FlagsLegal s) (exe : s.Executes i)
    (hclrerr : i ≠ .clrerr) (hclear : i ≠ .clear) : s.err = false := by
  refine Bool.eq_false_iff.2 fun herr => ?_
  rcases h.busy_err exe.busy herr with hopc | hopc
  · exact hclrerr (encode_injective (exe.opc.symm.trans hopc))
  · exact hclear (encode_injective (exe.opc.symm.trans hopc))

theorem flagsLegal_accept {s : State} {w : Word} (hadm : s.err = false ∨ w = encode .clrerr ∨ w = encode .clear) :
    FlagsLegal (s.accept w) := by
  rw [accept_eq]
  exact ⟨fun _ => rfl, fun hd => absurd hd Bool.false_ne_true, fun _ he => hadm.resolve_left (by simpa using he)⟩

theorem StepEffect.flagsLegal {s t : State} (e : StepEffect s t) (h : FlagsLegal s) : FlagsLegal t := by
  cases e with
  | quiet as => exact ⟨h.busy_not_done, h.done_not_err, h.busy_err⟩
  | ilenWritten _ idle | clenWritten _ idle => exact .of_idle idle h.done_not_err
  | accepted _ _ hadm => exact flagsLegal_accept hadm
  | byteWritten _ idle _ _ => exact .of_idle (by simpa using idle) (by simpa using h.done_not_err)
  | reset _ | clrerr _ | clear _ => exact .of_idle rfl fun _ => rfl
  | nop exe | compressed exe _ | decompressed exe _ _ =>
    exact .of_idle rfl fun _ => h.err_of_executes exe (by decide) (by decide)
  | compressFailed _ _ | decompressFailed _ _ | reservedWord _ _ _ =>
    exact .of_idle rfl fun hd => absurd hd Bool.false_ne_true

/-- Settles O34: every step effect keeps the legal combinations of the flags. -/
theorem stepKeepsFlagsLegal : Obligations.StepKeepsFlagsLegal :=
  fun _ _ h hstep => (step_effect hstep).flagsLegal h

/-! ### `ERRCODE` (R14) -/

theorem ErrcodeLegal.congr {s t : State} (h : ErrcodeLegal s) (herr : t.err = s.err) (hcode : t.errcode = s.errcode) :
    ErrcodeLegal t where
  zero_iff := by rw [herr, hcode]; exact h.zero_iff
  at_most_six := hcode ▸ h.at_most_six
  not_two := hcode ▸ h.not_two

theorem ErrcodeLegal.of_cleared {t : State} (herr : t.err = false) (hcode : t.errcode = 0) : ErrcodeLegal t where
  zero_iff := by simp [herr, hcode]
  at_most_six := by simp [hcode]
  not_two := by rw [hcode]; decide

/-- Error entry with any kind but the one that is never raised (R172). -/
theorem ErrcodeLegal.of_raised {t : State} {e : ErrorKind} (kind : e ≠ .unencodableSymbol) (herr : t.err = true)
    (hcode : t.errcode = e.code) : ErrcodeLegal t where
  zero_iff := by rw [herr, hcode]; cases e <;> decide
  at_most_six := by rw [hcode]; cases e <;> decide
  not_two := by
    rw [hcode]
    cases e with
    | unencodableSymbol => exact absurd rfl kind
    | emptyInput | codebookFormat | corruptStream | capacity | illegalCommand => decide

theorem StepEffect.errcodeLegal {s t : State} (e : StepEffect s t) (h : ErrcodeLegal s) : ErrcodeLegal t := by
  cases e with
  | accepted _ _ _ => rw [accept_eq]; exact h.congr rfl rfl
  | byteWritten _ _ _ _ => exact h.congr (by simp) (by simp)
  | reset _ | clrerr _ | clear _ => exact .of_cleared rfl rfl
  | compressFailed _ kind => exact .of_raised kind rfl rfl
  | decompressFailed _ kind => exact .of_raised kind rfl rfl
  | reservedWord _ _ _ => exact .of_raised (e := .illegalCommand) (by decide) rfl rfl
  | quiet _ | ilenWritten _ _ | clenWritten _ _ | nop _ | compressed _ _ | decompressed _ _ _ => exact h.congr rfl rfl

/-- Settles O35: every error entry writes one of the codes 1, 3, 4, 5, 6, because `COMPRESS` never meets a Symbol without a code. -/
theorem stepKeepsErrcodeLegal : Obligations.StepKeepsErrcodeLegal :=
  fun _ _ h hstep => (step_effect hstep).errcodeLegal h

/-! ### Buffers (R24 to R26) -/

/-- A buffer of capacity `cap` is in canonical form and lists no offset outside. -/
structure Memory.Legal (m : Memory) (cap : Nat) : Prop where
  canonical : m.wf = true
  inside : m.within cap = true

theorem buffersLegal_iff {s : State} : BuffersLegal s ↔ ∀ b, (s.mem b).Legal (Config.hw.cap b) :=
  ⟨fun h b => ⟨h.canonical b, h.inside b⟩, fun h => ⟨fun b => (h b).canonical, fun b => (h b).inside⟩⟩

theorem Memory.within_iff {m : Memory} {cap : Nat} : m.within cap = true ↔ ∀ c ∈ m.cells, c.1 < cap := by
  simp [Memory.within]

theorem Memory.Legal.write {m : Memory} {cap off : Nat} (h : m.Legal cap) (hoff : off < cap) (v : Byte) :
    (m.write off v).Legal cap where
  canonical := Memory.wf_write m off v h.canonical
  inside := Memory.within_iff.2 fun c hc => by
    rcases mem_insertCell hc with rfl | hc
    · exact hoff
    · exact Memory.within_iff.1 h.inside c hc

theorem Memory.Legal.forget (m : Memory) (cap : Nat) : m.forget.Legal cap := ⟨Memory.wf_forget m, rfl⟩

theorem Memory.Legal.writeBytes {m : Memory} {cap : Nat} (h : m.Legal cap) {vs : Bytes} {off : Nat}
    (hfit : off + vs.length ≤ cap) : (m.writeBytes off vs).Legal cap := by
  induction vs generalizing off with
  | nil => exact h
  | cons v vs ih =>
    rw [List.length_cons] at hfit
    exact (ih (by omega)).write (by omega) v

theorem Memory.Legal.deliver (m : Memory) {cap : Nat} {vs : Bytes} (hfit : vs.length ≤ cap) : (m.deliver vs).Legal cap :=
  (Memory.Legal.forget m cap).writeBytes (by omega)

theorem BuffersLegal.setMem {s : State} (h : BuffersLegal s) {b : Buf} {m : Memory} (hm : m.Legal (Config.hw.cap b)) :
    BuffersLegal (s.setMem b m) := by
  refine buffersLegal_iff.2 fun b' => ?_
  rw [State.setMem_mem]
  split
  · next hb => exact hb ▸ hm
  · exact buffersLegal_iff.1 h b'

theorem BuffersLegal.congr {s t : State} (h : BuffersLegal s) (hmem : ∀ b, t.mem b = s.mem b) : BuffersLegal t :=
  ⟨fun b => hmem b ▸ h.canonical b, fun b => hmem b ▸ h.inside b⟩

theorem BuffersLegal.of_bufs {s : State} (hi : s.ibuf.Legal (Config.hw.cap .ibuf)) (ho : s.obuf.Legal (Config.hw.cap .obuf))
    (hc : s.cbuf.Legal (Config.hw.cap .cbuf)) : BuffersLegal s :=
  buffersLegal_iff.2 fun b => by
    cases b with
    | ibuf => exact hi
    | obuf => exact ho
    | cbuf => exact hc

theorem StepEffect.buffersLegal {s t : State} (e : StepEffect s t) (h : BuffersLegal s) : BuffersLegal t := by
  have legal := buffersLegal_iff.1 h
  cases e with
  | accepted _ _ _ => rw [accept_eq]; exact h.congr fun b => by cases b <;> rfl
  | byteWritten _ _ inRange _ => exact BuffersLegal.setMem (s := s.popped) ⟨h.canonical, h.inside⟩ ((legal _).write inRange _)
  | reset _ => exact .of_bufs (.forget _ _) (.forget _ _) (.forget _ _)
  | compressFailed _ _ => exact .of_bufs (legal .ibuf) (.forget _ _) (.forget _ _)
  | compressed _ result =>
    exact .of_bufs (legal .ibuf) (.deliver _ (compressText_bounded result).out_le)
      (.deliver _ (compressText_artifact_le result))
  | decompressFailed _ _ => exact .of_bufs (legal .ibuf) (.forget _ _) (legal .cbuf)
  | decompressed _ fits result =>
    exact .of_bufs (legal .ibuf) (.deliver _ (decompress_bounded fits result).out_le) (legal .cbuf)
  | quiet _ | ilenWritten _ _ | clenWritten _ _ | nop _ | clrerr _ | clear _ | reservedWord _ _ _ =>
    exact .of_bufs (legal .ibuf) (legal .obuf) (legal .cbuf)

/-- Settles O36: what a step writes into a buffer fits its capacity; for `CBUF` this is the bound on the artifact. -/
theorem stepKeepsBuffersLegal : Obligations.StepKeepsBuffersLegal :=
  fun _ _ h hstep => (step_effect hstep).buffersLegal h

/-! ### Results (R17 to R22) -/

/-- Zero results are legal, with `CLEN` = 0 while a `COMPRESS` is pending. -/
theorem ResultsLegal.of_resultsZero {t : State} (hzero : t.resultsZero)
    (hclen : t.busy = true → t.opc = encode .compress → t.clen = 0) : ResultsLegal t := by
  obtain ⟨holen, hslen, hnsym, hbitlen, hpad, hrootfreq⟩ := id hzero
  exact {
    output_specified := by rw [holen]; rfl
    output_fits := by rw [holen]; exact Nat.zero_le _
    nsym_le := by rw [hnsym]; exact Nat.zero_le _
    pad_le := by rw [hpad]; exact Nat.zero_le _
    rootfreq_eq := .inl hrootfreq
    slen_le := by rw [hslen]; exact Nat.zero_le _
    pending_zero := fun _ _ => hzero
    pending_clen := hclen
    failed_zero := fun _ _ => hzero }

/-- A change that keeps `OBUF` and the six result registers, and meets the clauses on pending and failed commands. -/
theorem ResultsLegal.congr {s t : State} (h : ResultsLegal s) (hobuf : t.obuf = s.obuf)
    (hres : (t.olen, t.slen, t.nsym, t.bitlen, t.pad, t.rootfreq) = (s.olen, s.slen, s.nsym, s.bitlen, s.pad, s.rootfreq))
    (hpend : t.busy = true → isWork t.opc = true → t.resultsZero ∧ (t.opc = encode .compress → t.clen = 0))
    (hfail : t.err = true → t.errcode ≠ ErrorKind.illegalCommand.code → t.resultsZero) : ResultsLegal t := by
  simp only [Prod.mk.injEq] at hres
  obtain ⟨holen, hslen, hnsym, hbitlen, hpad, hrootfreq⟩ := hres
  exact {
    output_specified := by rw [hobuf, holen]; exact h.output_specified
    output_fits := by rw [holen]; exact h.output_fits
    nsym_le := by rw [hnsym]; exact h.nsym_le
    pad_le := by rw [hpad]; exact h.pad_le
    rootfreq_eq := by rw [hrootfreq, hslen]; exact h.rootfreq_eq
    slen_le := by rw [hslen, hbitlen]; exact h.slen_le
    pending_zero := fun hb hw => (hpend hb hw).1
    pending_clen := fun hb hc => (hpend hb (isWork_iff.2 (.inl hc))).2 hc
    failed_zero := hfail }

/-- The script and the log of answers are not the block's (log 1, log 3). -/
theorem ResultsLegal.environment {s : State} (h : ResultsLegal s) (es : List Event) (as : List Answer) :
    ResultsLegal { s with script := es, answers := as } :=
  h.congr rfl rfl (fun hb hw => ⟨h.pending_zero hb hw, h.pending_clen hb⟩) h.failed_zero

/-- A change as in `ResultsLegal.congr` that leaves the block idle. -/
theorem ResultsLegal.congr_idle {s t : State} (h : ResultsLegal s) (hobuf : t.obuf = s.obuf)
    (hres : (t.olen, t.slen, t.nsym, t.bitlen, t.pad, t.rootfreq) = (s.olen, s.slen, s.nsym, s.bitlen, s.pad, s.rootfreq))
    (idle : t.busy = false)
    (hfail : t.err = true → t.errcode ≠ ErrorKind.illegalCommand.code → t.resultsZero) : ResultsLegal t :=
  h.congr hobuf hres (fun hb => absurd hb (by simp [idle])) hfail

theorem Memory.covers_deliver (m : Memory) (vs : Bytes) : (m.deliver vs).covers vs.length = true := by
  simp [Memory.covers, Memory.known_deliver]

/-- Acceptance keeps the result registers legal: a work command zeroes them, any other command leaves them (R150). -/
theorem ResultsLegal.accept {s : State} (h : ResultsLegal s) (w : Word) : ResultsLegal (s.accept w) := by
  rw [accept_eq]
  by_cases hw : isWork w = true
  · refine .of_resultsZero (by simp [State.resultsZero, hw]) fun _ hc => ?_
    exact if_pos hc
  · refine h.congr rfl (by simp [hw]) (fun _ hw' => absurd hw' hw) fun he hcode => ?_
    simpa [State.resultsZero, hw] using h.failed_zero he hcode

/-- A delivered result is legal (R154, R155). -/
theorem ResultsLegal.of_delivered {t : State} {d : Delivery} {m : Memory} (bounded : d.Bounded) (idle : t.busy = false)
    (err : t.err = false) (hobuf : t.obuf = m.deliver d.out) (hreg : (t.olen, t.slen, t.nsym, t.bitlen, t.pad) = d.registers)
    (hroot : t.rootfreq = 0 ∨ t.rootfreq = t.slen) : ResultsLegal t := by
  obtain ⟨hout, hnsym, hpad, hsym, hbit⟩ := bounded
  simp only [Delivery.registers, Prod.mk.injEq] at hreg
  obtain ⟨holen, hslen, hnsym', hbitlen, hpad'⟩ := hreg
  have hcap : Config.hw.outCap = 524288 := rfl
  have hmax : Config.nsymMax = 256 := rfl
  have hlen : t.olen.toNat = d.out.length := by rw [holen]; exact Nat.mod_eq_of_lt (by omega)
  exact {
    output_specified := by rw [hobuf, hlen]; exact Memory.covers_deliver m d.out
    output_fits := hlen ▸ hout
    nsym_le := by rw [hnsym', BitVec.toNat_ofNat]; omega
    pad_le := by rw [hpad', BitVec.toNat_ofNat]; omega
    rootfreq_eq := hroot
    slen_le := by rw [hslen, hbitlen, BitVec.toNat_ofNat, BitVec.toNat_ofNat]; omega
    pending_zero := fun hb => absurd hb (by simp [idle])
    pending_clen := fun hb => absurd hb (by simp [idle])
    failed_zero := fun he => absurd he (by simp [err]) }

theorem StepEffect.resultsLegal {s t : State} (e : StepEffect s t) (hf : FlagsLegal s) (h : ResultsLegal s) :
    ResultsLegal t := by
  have pending {i : Instr} (exe : s.Executes i) (hw : isWork (encode i) = true) : s.resultsZero :=
    h.pending_zero exe.busy (exe.opc ▸ hw)
  cases e with
  | quiet as => exact h.environment _ _
  | ilenWritten _ idle | clenWritten _ idle => exact h.congr_idle rfl rfl idle h.failed_zero
  | accepted _ _ _ => exact (h.environment _ s.answers).accept _
  | byteWritten _ idle _ hb =>
    refine h.congr_idle ?_ (by simp) (by simpa using idle) (by simpa [State.resultsZero] using h.failed_zero)
    exact (State.setMem_mem _ _ .obuf _).trans (if_neg hb.symm)
  | nop _ => exact h.congr_idle rfl rfl rfl h.failed_zero
  | clrerr _ => exact h.congr_idle rfl rfl rfl fun he => absurd he Bool.false_ne_true
  | reservedWord _ _ _ => exact h.congr_idle rfl rfl rfl fun _ hcode => absurd rfl hcode
  | reset _ | clear _ => exact .of_resultsZero ⟨rfl, rfl, rfl, rfl, rfl, rfl⟩ fun _ _ => rfl
  | compressFailed exe _ => exact .of_resultsZero (pending exe rfl) fun hb => absurd hb Bool.false_ne_true
  | decompressFailed exe _ => exact .of_resultsZero (pending exe rfl) fun hb => absurd hb Bool.false_ne_true
  | compressed exe result =>
    exact .of_delivered (compressText_bounded result) rfl (hf.err_of_executes exe (by decide) (by decide)) rfl rfl
      (.inr (congrArg (BitVec.ofNat 32) (compressText_rootFreq result)))
  | decompressed exe fits result =>
    exact .of_delivered (decompress_bounded fits result) rfl (hf.err_of_executes exe (by decide) (by decide)) rfl rfl (.inl rfl)

/-! ### The whole invariant -/

/-- Settles O33: each part of the invariant is kept by every step effect; the results also need the legal flags, because a work
command that completes must not be running in the error state. -/
theorem stepKeepsInvariant : Obligations.StepKeepsInvariant := fun _ _ h hstep =>
  have e := step_effect hstep
  ⟨e.flagsLegal h.flags, e.errcodeLegal h.code, e.buffersLegal h.buffers, e.resultsLegal h.flags h.results⟩

/-- Settles O4: at reset all results are 0 and no buffer lists a byte. -/
theorem resetMeetsInvariant : Obligations.ResetMeetsInvariant where
  flags := .of_idle rfl fun _ => rfl
  code := .of_cleared rfl rfl
  buffers := .of_bufs ⟨rfl, rfl⟩ ⟨rfl, rfl⟩ ⟨rfl, rfl⟩
  results := .of_resultsZero ⟨rfl, rfl, rfl, rfl, rfl, rfl⟩ fun _ _ => rfl

end Sys2Proof.Machine
end

section
/-! What a step may change of the operands and the output (10_state.md R15, R24, R25), what `COMPRESS` depends on (R32), and the
registers as the host sees them (R11 to R16, R36). -/

namespace Sys2Proof.Machine

/-! ### Who writes the buffers and `ILEN` -/

/-- R24: one of the two events that can change `IBUF`, or it is unchanged. -/
theorem StepEffect.ibuf_cases {s t : State} (e : StepEffect s t) :
    (∃ rest, s.script = .hardReset :: rest) ∨
    (∃ off v rest, s.script = .writeBuf .ibuf off v :: rest ∧ s.busy = false ∧ off < Config.hw.inCap ∧
      t = s.popped.setMem .ibuf ((s.popped.mem .ibuf).write off v)) ∨
    t.ibuf = s.ibuf := by
  cases e with
  | reset event => exact .inl ⟨_, event⟩
  | @byteWritten b off v rest event idle inRange writable =>
    cases b with
    | ibuf => exact .inr (.inl ⟨off, v, rest, event, idle, inRange, rfl⟩)
    | obuf => exact absurd rfl writable
    | cbuf => exact .inr (.inr rfl)
  | accepted _ _ _ => rw [accept_eq]; exact .inr (.inr rfl)
  | _ => exact .inr (.inr rfl)

/-- R25: the reset or the work command that can change `OBUF`, or it is unchanged. -/
theorem StepEffect.obuf_cases {s t : State} (e : StepEffect s t) :
    (∃ rest, s.script = .hardReset :: rest) ∨ (s.Executes .compress ∨ s.Executes .decompress) ∨ t.obuf = s.obuf := by
  cases e with
  | reset event => exact .inl ⟨_, event⟩
  | compressFailed exe _ | compressed exe _ => exact .inr (.inl (.inl exe))
  | decompressFailed exe _ | decompressed exe _ _ => exact .inr (.inl (.inr exe))
  | byteWritten _ _ _ writable => exact .inr (.inr ((State.setMem_mem _ _ .obuf _).trans (if_neg writable.symm)))
  | accepted _ _ _ => rw [accept_eq]; exact .inr (.inr rfl)
  | _ => exact .inr (.inr rfl)

/-- Settles O39: the only step effects that touch `IBUF` are the reset and the host's write, which changes one byte. -/
theorem onlyHostWritesInput : Obligations.OnlyHostWritesInput := by
  intro s t off hstep hne
  rcases (step_effect hstep).ibuf_cases with hreset | ⟨off', v, rest, event, idle, inRange, rfl⟩ | hsame
  · exact .inl hreset
  · rw [byte_setMem_write] at hne ⊢
    by_cases hoff : off = off'
    · subst hoff
      exact .inr ⟨idle, inRange, rest, by simpa using event⟩
    · exact absurd (if_neg fun h => hoff h.2) hne
  · exact absurd (byte_congr (b := .ibuf) hsame off) hne

/-- Settles O40: the only step effects that touch `OBUF` are the reset and the four outcomes of the work commands. -/
theorem onlyWorkCommandsWriteOutput : Obligations.OnlyWorkCommandsWriteOutput := by
  intro s t off hstep hne
  rcases (step_effect hstep).obuf_cases with hreset | exe | hsame
  · exact .inl hreset
  · rcases exe with exe | exe
    · exact .inr ⟨exe.busy, .inl exe.opc, exe.turn⟩
    · exact .inr ⟨exe.busy, .inr exe.opc, exe.turn⟩
  · exact absurd (byte_congr (b := .obuf) hsame off) hne

/-- Settles O41: the only step effects that touch `ILEN` are the reset, the host's write of register 3, and `CLEAR`. -/
theorem onlyHostOrClearWritesIlen : Obligations.OnlyHostOrClearWritesIlen := by
  intro s t hstep hne
  cases step_effect hstep with
  | reset event => exact .inl ⟨_, event⟩
  | ilenWritten event idle => exact .inr (.inl ⟨idle, _, event⟩)
  | clear exe => exact .inr (.inr ⟨exe.busy, exe.opc, exe.turn⟩)
  | accepted _ _ _ => rw [accept_eq] at hne; exact absurd rfl hne
  | byteWritten _ _ _ _ => exact absurd (State.setMem_ilen _ _ _) hne
  | _ => exact absurd rfl hne

/-! ### What `COMPRESS` depends on -/

theorem inputBytes_congr {s t : State} (hlen : s.ilen = t.ilen)
    (hbytes : ∀ off, off < s.ilen.toNat → s.byte .ibuf off = t.byte .ibuf off) : s.inputBytes = t.inputBytes := by
  rw [State.inputBytes, State.inputBytes, ← hlen]
  exact State.memRead_congr fun i hi => by simpa using hbytes i hi

/-- Settles O20: both runs take the same branch, on the same `ILEN` and the same text, and deliver what that text compresses to. -/
theorem compressDependsOnTextOnly : Obligations.CompressDependsOnTextOnly := by
  intro s₁ s₂ hlen hbytes
  have htext := inputBytes_congr hlen hbytes
  refine ⟨_, _, rfl, rfl, ?_⟩
  simp only [State.compress, ← hlen, ← htext, raiseError_obuf_cbuf]
  by_cases hcap : Config.hw.inCap < s₁.ilen.toNat
  · rw [if_pos hcap, if_pos hcap]
    exact ⟨rfl, fun _ => rfl, fun hd => absurd hd Bool.false_ne_true⟩
  · rw [if_neg hcap, if_neg hcap]
    cases compressText Config.hw s₁.inputBytes with
    | error e => exact ⟨rfl, fun _ => rfl, fun hd => absurd hd Bool.false_ne_true⟩
    | ok r =>
      refine ⟨rfl, fun hd => absurd hd.symm Bool.false_ne_true, fun _ =>
        ⟨rfl, rfl, rfl, rfl, rfl, rfl, rfl, fun off => ?_, fun off => ?_⟩⟩
      · exact (Memory.known_deliver _ _ off).trans (Memory.known_deliver _ _ off).symm
      · exact (Memory.known_deliver _ _ off).trans (Memory.known_deliver _ _ off).symm

/-! ### The registers as the host sees them -/

theorem readReg_reset (n : Nat) : State.reset.readReg n = 0 := by
  unfold State.readReg
  split <;> rfl

/-- Settles O3: every register of the reset state is 0 and no buffer lists a byte. -/
theorem resetReadsZero : Obligations.ResetReadsZero :=
  ⟨fun n => (hostReadReg_idle rfl n).trans (readReg_reset n), rfl, rfl, rfl, rfl, rfl, fun b _ => by cases b <;> rfl⟩

theorem statusValue_lt (s : State) : 4 * s.err.toNat + 2 * s.done.toNat + s.busy.toNat < 2 ^ 3 := by
  have := s.err.toNat_le
  have := s.done.toNat_le
  have := s.busy.toNat_le
  omega

theorem threeFlags_bits : ∀ e d b : Bool,
    (BitVec.ofNat 32 (4 * e.toNat + 2 * d.toNat + b.toNat)).getLsbD 0 = b ∧
    (BitVec.ofNat 32 (4 * e.toNat + 2 * d.toNat + b.toNat)).getLsbD 1 = d ∧
    (BitVec.ofNat 32 (4 * e.toNat + 2 * d.toNat + b.toNat)).getLsbD 2 = e := by decide

/-- The reserved bits of `STATUS` read as 0 (R13, V9). -/
theorem statusWord_reserved (s : State) {i : Nat} (hi : 3 ≤ i) : s.statusWord.getLsbD i = false := by
  have hlt := (statusValue_lt s).trans_le (Nat.pow_le_pow_right (by decide) hi)
  rw [State.statusWord, BitVec.getLsbD_ofNat, Nat.testBit_lt_two_pow hlt, Bool.and_false]

/-- Settles O26: the three flags fill bits 2:0 of a word below 8, and `ERRCODE` is a 4-bit field widened with zeros. -/
theorem statusAndErrcodeFields : Obligations.StatusAndErrcodeFields := by
  intro s
  obtain ⟨hbusy, hdone, herr⟩ := threeFlags_bits s.err s.done s.busy
  refine ⟨hbusy, hdone, herr, fun i hi => statusWord_reserved s hi, fun i hi => ?_, fun i hi => ?_⟩
  · rw [State.errcodeWord, BitVec.getLsbD_setWidth, decide_eq_true (by omega), Bool.true_and]
  · rw [State.errcodeWord, BitVec.getLsbD_setWidth, BitVec.getLsbD_of_ge _ _ hi, Bool.and_false]

/-- Settles O27: an idle read answers `readReg`, register by register. -/
theorem idleRegisterReads : Obligations.IdleRegisterReads := by
  intro s n rest hb hs
  refine ⟨s.readReg n, ?_, ?_⟩
  · rw [step_of_hostEvent hs (by simp), State.hostEvent, hostReadReg_idle (s := { s with script := rest }) hb]
    rfl
  · refine ⟨?_, ?_, ?_, ?_, ?_, ?_, ?_, ?_, ?_, ?_, ?_, readReg_of_eleven_le s⟩ <;> (rintro rfl; rfl)

/-- A write of a register that the host cannot write is dropped (R41, R42). -/
theorem hostWriteReg_dropped (s : State) {n : Nat} (w : Word) (h0 : n ≠ 0) (h3 : n ≠ 3) (h4 : n ≠ 4) :
    s.hostWriteReg n w = s := by
  rcases hostWriteReg_cases s n w with h | ⟨-, hn, -⟩ | ⟨-, hn, -⟩ | ⟨-, hn, -⟩
  · exact h
  · exact absurd hn h3
  · exact absurd hn h4
  · exact absurd hn h0

theorem hostWriteReg_ilen {s : State} (hb : s.busy = false) (w : Word) : s.hostWriteReg 3 w = { s with ilen := w } := by
  simp [State.hostWriteReg, hb]

theorem hostWriteReg_clen {s : State} (hb : s.busy = false) (w : Word) : s.hostWriteReg 4 w = { s with clen := w } := by
  simp [State.hostWriteReg, hb]

/-- Settles O28: the write is one host event, which stores `ILEN` or `CLEN` or is dropped. -/
theorem idleRegisterWrites : Obligations.IdleRegisterWrites := by
  intro s n w rest hb hs
  have hstep : step s = .next (State.hostWriteReg { s with script := rest } n w) := step_of_hostEvent hs (by simp)
  refine ⟨?_, ?_, fun h0 h3 h4 => ?_⟩
  · rintro rfl; rw [hstep, hostWriteReg_ilen (s := { s with script := rest }) hb]
  · rintro rfl; rw [hstep, hostWriteReg_clen (s := { s with script := rest }) hb]
  · rw [hstep, hostWriteReg_dropped _ w h0 h3 h4]

end Sys2Proof.Machine
end

section
/-! Bits within bytes (20_memory.md R44), and the host's accesses to the buffers, idle and busy (R40 to R43, R47). -/

namespace Sys2Proof.Machine

/-! ### Bits and bytes -/

theorem bytesToBits_bitsToBytes {B : BitString} {n : Nat} (h : B.length = 8 * n) : bytesToBits (bitsToBytes B) = B :=
  wholeBytes_induction (fun B => bytesToBits (bitsToBytes B) = B) rfl
    (fun b7 b6 b5 b4 b3 b2 b1 b0 r ih => by
      rw [bitsToBytes_eight, bytesToBits_cons, byteBits_ofBits, ih]
      rfl) n B h

theorem bitsToBytes_bytesToBits (Y : Bytes) : bitsToBytes (bytesToBits Y) = Y := by
  induction Y with
  | nil => rfl
  | cons y Y ih => rw [bytesToBits_cons, bitsToBytes_byteBits_append, ih]

/-- Bit `j` of a byte, most significant first, is its binary digit of weight `2^(7-j)` (R44). -/
theorem byteBits_getElem? (y : Byte) {j : Nat} (hj : j < 8) :
    (byteBits y)[j]? = some (decide (y.toNat / 2 ^ (7 - j) % 2 = 1)) := by
  have hbit : (byteBits y)[j]? = some (y.getLsbD (7 - j)) := by interval_cases j <;> rfl
  rw [hbit, BitVec.getLsbD, Nat.testBit_eq_decide_div_mod_eq]

/-- The bits of the bytes stand eight by eight, in the order of the bytes (R44). -/
theorem bytesToBits_getElem? {Y : Bytes} {k j : Nat} {y : Byte} (hy : Y[k]? = some y) (hj : j < 8) :
    (bytesToBits Y)[8 * k + j]? = (byteBits y)[j]? := by
  induction Y generalizing k with
  | nil => cases hy
  | cons x Y ih =>
    rw [bytesToBits_cons]
    cases k with
    | zero =>
      cases hy
      rw [Nat.mul_zero, Nat.zero_add, List.getElem?_append_left (by rwa [byteBits_length])]
    | succ k =>
      rw [List.getElem?_append_right (by rw [byteBits_length]; omega), byteBits_length,
        show 8 * (k + 1) + j - 8 = 8 * k + j by omega]
      exact ih hy

/-- Settles O42: both inverses go byte by byte, by induction over the bytes and over eight bits at once; a bit of the sequence is
a bit of its byte, and so a binary digit. -/
theorem bitsBytesInverse : Obligations.BitsBytesInverse :=
  ⟨fun _ h => bytesToBits_bitsToBytes (Nat.mul_div_cancel' (Nat.dvd_of_mod_eq_zero h)).symm, bitsToBytes_bytesToBits,
    fun _ _ _ y hy hj => (bytesToBits_getElem? hy hj).trans (byteBits_getElem? y hj)⟩

/-! ### The host's accesses to a buffer -/

theorem hostReadBuf_inRange {P : Params} {s : State} {b : Buf} {off : Nat} (hb : s.busy = false) (hoff : off < P.cap b) :
    s.hostReadBuf P b off = s.byte b off :=
  if_neg (by simp [hb, hoff])

theorem hostReadBuf_zero {P : Params} {s : State} {b : Buf} {off : Nat} (h : s.busy = true ∨ P.cap b ≤ off) :
    s.hostReadBuf P b off = 0 :=
  if_pos h

theorem hostWritable_eq_false_iff {b : Buf} : hostWritable b = false ↔ b = .obuf := by
  cases b <;> decide

theorem hostWriteBuf_stored {P : Params} {s : State} {b : Buf} {off : Nat} (v : Byte) (hb : s.busy = false)
    (hoff : off < P.cap b) (hw : b ≠ .obuf) : s.hostWriteBuf P b off v = s.setMem b ((s.mem b).write off v) :=
  if_neg (by simp [hb, hoff, hostWritable_eq_false_iff, hw])

theorem hostWriteBuf_dropped {P : Params} {s : State} {b : Buf} {off : Nat} (v : Byte)
    (h : s.busy = true ∨ P.cap b ≤ off ∨ b = .obuf) : s.hostWriteBuf P b off v = s :=
  if_pos (by rwa [hostWritable_eq_false_iff])

/-- A write changes what one byte is specified to hold. -/
theorem known_setMem_write (s : State) (b b' : Buf) (off off' : Nat) (v : Byte) :
    ((s.setMem b ((s.mem b).write off v)).mem b').known off' =
      if b' = b ∧ off' = off then some v else (s.mem b').known off' := by
  rw [State.setMem_mem]
  by_cases hb : b' = b
  · subst hb
    simp [Memory.known_write]
  · simp [hb]

/-- A change of `IBUF` or `CBUF` leaves everything but these two buffers. -/
theorem setMem_frame (s : State) {b : Buf} (m : Memory) (hw : b ≠ .obuf) :
    { s.setMem b m with ibuf := s.ibuf, cbuf := s.cbuf } = s := by
  cases b with
  | ibuf | cbuf => rfl
  | obuf => exact absurd rfl hw

/-- Settles O29: the read is one host event, which answers the byte or 0. -/
theorem idleBufferReads : Obligations.IdleBufferReads := by
  intro s b off rest hb hs
  have hstep : step s = .next (State.note { s with script := rest }
      (.byte b off (State.hostReadBuf Config.hw { s with script := rest } b off))) := step_of_hostEvent hs (by simp)
  refine ⟨fun hoff => ?_, fun hoff => ?_⟩
  · rw [hstep, hostReadBuf_inRange (s := { s with script := rest }) hb hoff]
    rfl
  · rw [hstep, hostReadBuf_zero (.inr hoff)]
    rfl

/-- Settles O30: the write is one host event, which stores one byte or is dropped. -/
theorem idleBufferWrites : Obligations.IdleBufferWrites := by
  intro s b off v rest hb hs
  have hstep : step s = .next (State.hostWriteBuf Config.hw { s with script := rest } b off v) :=
    step_of_hostEvent hs (by simp)
  refine ⟨fun hw hoff => ⟨_, hstep, ?_⟩, fun h => ?_⟩
  · rw [hostWriteBuf_stored (s := { s with script := rest }) v hb hoff hw]
    exact ⟨fun b' off' => byte_setMem_write _ b b' off off' v, fun b' off' => known_setMem_write _ b b' off off' v,
      setMem_frame _ _ hw⟩
  · rw [hstep, hostWriteBuf_dropped v (.inr h.symm)]

/-! ### The host's accesses while the block is busy -/

/-- While `BUSY = 1` only `STATUS` answers (R43). -/
theorem hostReadReg_busy {s : State} (hb : s.busy = true) (n : Nat) :
    s.hostReadReg n = if n = 1 then s.statusWord else 0 := by
  by_cases hn : n = 1
  · subst hn
    simp [State.hostReadReg, State.readReg]
  · simp [State.hostReadReg, hb, hn]

theorem hostWriteReg_busy {s : State} (hb : s.busy = true) (n : Nat) (w : Word) : s.hostWriteReg n w = s :=
  if_pos hb

/-- Settles O31: each access is one host event, which reads `STATUS` or 0, or is dropped. -/
theorem busyAccesses : Obligations.BusyAccesses := by
  intro s rest hb
  refine ⟨fun n hs => ?_, fun n w hs => ?_, fun b off hs => ?_, fun b off v hs => ?_⟩ <;>
    rw [step_of_hostEvent hs (by simp), State.hostEvent]
  · rw [hostReadReg_busy (s := { s with script := rest }) hb]
    rfl
  · rw [hostWriteReg_busy (s := { s with script := rest }) hb]
  · rw [hostReadBuf_zero (s := { s with script := rest }) (.inl hb)]
    rfl
  · rw [hostWriteBuf_dropped (s := { s with script := rest }) v (.inl hb)]

end Sys2Proof.Machine
end

section
/-! The command word (30_encoding.md R60 to R62): the decoder and the encoder against each other, and the reserved words. -/

namespace Sys2Proof.Machine

theorem decodeWord_encode (i : Instr) : decodeWord (encode i) = .ok i := by
  cases i <;> decide

theorem decodeWord_eq_ok_iff {w : Word} {i : Instr} : decodeWord w = .ok i ↔ w = encode i :=
  ⟨eq_encode_of_decodeWord, fun h => h ▸ decodeWord_encode i⟩

theorem zeroField_toNat (w : Word) : (zeroField w).toNat = w.toNat / 256 := by
  rw [zeroField, BitVec.extractLsb'_toNat, Nat.shiftRight_eq_div_pow]
  omega

theorem zeroField_eq_zero_iff {w : Word} : zeroField w = 0#24 ↔ w.toNat < 256 := by
  rw [← BitVec.toNat_inj, zeroField_toNat, BitVec.toNat_ofNat]
  omega

/-- The opcode map rejects by one name (R62). -/
theorem decodeOpcode_error {op : Byte} {e : DecodeError} (h : decodeOpcode op = .error e) : e = .reservedOpcode := by
  simp only [decodeOpcode] at h
  split_ifs at h
  cases h
  rfl

theorem decodeWord_upperBitsSet {w : Word} (h : 256 ≤ w.toNat) : decodeWord w = .error .upperBitsSet :=
  if_neg fun hz => Nat.not_lt.2 h (zeroField_eq_zero_iff.1 hz)

theorem decodeWord_reservedOpcode {w : Word} (hw : ∀ i, w ≠ encode i) (h : w.toNat < 256) :
    decodeWord w = .error .reservedOpcode := by
  have hop : decodeWord w = decodeOpcode (opcodeField w) := if_pos (zeroField_eq_zero_iff.2 h)
  cases hd : decodeWord w with
  | ok i => exact absurd (decodeWord_eq_ok_iff.1 hd) (hw i)
  | error e => rw [decodeOpcode_error (hop.symm.trans hd)]

/-- Settles O2: the decoder inverts the encoder, command by command, and only a command's own word decodes to it; of the other
words, the upper field tells the two kinds apart, being the word divided by 256. -/
theorem decodeEncodeAgree : Obligations.DecodeEncodeAgree :=
  ⟨fun _ _ => decodeWord_eq_ok_iff, fun _ hw => ⟨decodeWord_upperBitsSet, decodeWord_reservedOpcode hw⟩⟩

/-- Settles O1: fourteen fixed words, each decoded. -/
theorem commandWordsDecode : Obligations.CommandWordsDecode := by
  unfold Obligations.CommandWordsDecode
  decide

end Sys2Proof.Machine
end

section
/-! The two artifacts of a `COMPRESS`: the stream `Pack` makes, bit for bit (30_encoding.md R63, 43_bitstream_encoder.md R112 to
R115), and the codebook artifact, which the loader reads back (30_encoding.md R69, 45_codebook_loader.md R130 to R135). -/

namespace Sys2Proof.Machine

/-! ### The stream -/

theorem padding_bounds (L : Nat) : 1 ≤ padding L ∧ padding L ≤ 8 := by
  simp only [padding]
  omega

/-- What `Pack` answers when it succeeds (R110). -/
theorem pack_ok {P : Params} {S : Bytes} {ct : CodeTable} {pk : Packed} (h : pack P S ct = .ok pk) :
    pk = { stream := bitsToBytes (streamBits (concatCodes S ct)), bitLen := (concatCodes S ct).length,
           pad := padding (concatCodes S ct).length } := by
  simp only [pack] at h
  split_ifs at h
  cases h
  rfl

/-- The first byte of a stream is its padding count (R114). -/
theorem bitsToBytes_streamBits_head (B : BitString) :
    (bitsToBytes (streamBits B)).head? = some (BitVec.ofNat 8 (padding B.length)) := by
  rw [streamBits, header, List.append_assoc, bitsToBytes_byteBits_append, List.head?_cons]

/-- Settles O53: the stream's bits are whole bytes, so cutting them into bytes loses none, and the first eight are the header. -/
theorem packStreamFormat : Obligations.PackStreamFormat := by
  intro P S ct pk h
  obtain rfl := pack_ok h
  have hbits := streamBits_length (concatCodes S ct)
  obtain ⟨hlow, hhigh⟩ := padding_bounds (concatCodes S ct).length
  exact ⟨rfl, rfl, hlow, hhigh, bitsToBytes_length hbits, bitsToBytes_streamBits_head _, bytesToBits_bitsToBytes hbits⟩

/-! ### The codebook artifact -/

theorem RevTable.wf_iff {t : RevTable} :
    t.wf = true ↔ (∀ e ∈ t, codeWf e.1 = true) ∧ (t.map Prod.fst).Nodup ∧ (t.map Prod.snd).Nodup := by
  simp [RevTable.wf, and_assoc]

/-- A terminated artifact is loaded line by line (R130, R131). -/
theorem cbLoad_terminated (U : Bytes) : cbLoad (U ++ [charLF]) = loadLines (splitLF U) [] := by
  simp [cbLoad]

/-- The rendered lines before a last, unterminated one are split off one by one (R120, R132). -/
theorem splitLF_cbSer_append (t : RevTable) {l : Bytes} (h : ∀ x ∈ l, x ≠ charLF) :
    splitLF (cbSer t ++ l) = t.map lineBody ++ [l] := by
  induction t with
  | nil => exact splitLF_of_clean h
  | cons e t ih =>
    have hcut : cbSer (e :: t) ++ l = lineBody e ++ charLF :: (cbSer t ++ l) := by simp [cbSer]
    rw [hcut, splitLF_clean_append (lineBody_no_LF e), ih, List.map_cons, List.cons_append]

/-- Loading what was serialized is loading the rendered lines: the terminator of the last line ends the artifact. -/
theorem cbLoad_cbSer {t : RevTable} (h : t ≠ []) : cbLoad (cbSer t) = loadLines (t.map lineBody) [] := by
  obtain ⟨t, e, rfl⟩ := (List.eq_nil_or_concat' t).resolve_left h
  have hlast : cbSer (t ++ [e]) = (cbSer t ++ lineBody e) ++ [charLF] := by simp [cbSer]
  rw [hlast, cbLoad_terminated, splitLF_cbSer_append t (lineBody_no_LF e), List.map_append, List.map_singleton]

/-- An entry that stands in a well-formed table has a Symbol and a code that no entry before it has (R134). -/
theorem RevTable.fresh_of_wf {t u : RevTable} {e : Entry} (h : RevTable.wf (t ++ e :: u) = true) :
    (t.any (fun f => f.2 == e.2) || t.any (fun f => f.1 == e.1)) = false := by
  obtain ⟨-, hcodes, hsyms⟩ := RevTable.wf_iff.1 h
  rw [List.map_append, List.map_cons] at hcodes hsyms
  obtain ⟨-, -, hcode⟩ := List.nodup_append.1 hcodes
  obtain ⟨-, -, hsym⟩ := List.nodup_append.1 hsyms
  simp only [Bool.or_eq_false_iff, List.any_eq_false, beq_iff_eq]
  exact ⟨fun f hf => hsym _ (List.mem_map_of_mem hf) _ List.mem_cons_self,
    fun f hf => hcode _ (List.mem_map_of_mem hf) _ List.mem_cons_self⟩

/-- Loading the rendered entries after a table appends them to it, in order, when the whole is well formed (R134, R135). -/
theorem loadLines_lineBody {t u : RevTable} (h : RevTable.wf (t ++ u) = true) :
    loadLines (u.map lineBody) t = .ok (t ++ u) := by
  induction u generalizing t with
  | nil => simp [loadLines]
  | cons e u ih =>
    obtain ⟨hcodes, -, -⟩ := RevTable.wf_iff.1 h
    have hcode : codeWf e.1 = true := hcodes e (by simp)
    have happ : t ++ e :: u = (t ++ [e]) ++ u := by simp
    rw [List.map_cons, loadLines]
    simp only [parseLine_lineBody hcode, RevTable.fresh_of_wf h, Bool.false_eq_true, if_false]
    rw [happ]
    exact ih (happ ▸ h)

/-- Settles O54: the artifact splits back into the rendered lines, the parser inverts each, and well-formedness is what the
loader's check for duplicates asks; the empty table renders to the empty artifact. -/
theorem loadSerialized : Obligations.LoadSerialized :=
  ⟨fun _ hne hwf => (cbLoad_cbSer hne).trans (loadLines_lineBody hwf), rfl⟩

end Sys2Proof.Machine
end

section
/-! Input conditioning and the frequency analyzer (40_frequency_analyzer.md R80 to R83): what `Trim` removes, what `Analyze`
counts, and that neither the counts nor the tree see the order of the Symbols (41_tree_builder.md R92). -/

namespace Sys2Proof.Machine

/-! ### `Trim` -/

/-- The bytes that `Trim` removes: the longest suffix whose bytes are all in `WS` (R80). -/
def trimmedSuffix (P : Params) (X : Bytes) : Bytes := X.rtakeWhile P.ws.contains

theorem trim_eq_rdropWhile (P : Params) (X : Bytes) : trim P X = X.rdropWhile P.ws.contains := rfl

theorem trim_append_trimmedSuffix (P : Params) (X : Bytes) : trim P X ++ trimmedSuffix P X = X := by
  rw [trim_eq_rdropWhile, trimmedSuffix, List.rdropWhile_append_rtakeWhile]

theorem mem_ws_of_mem_trimmedSuffix {P : Params} {X : Bytes} {x : Byte} (h : x ∈ trimmedSuffix P X) : x ∈ P.ws :=
  List.contains_iff_mem.1 (List.mem_rtakeWhile_imp h)

theorem getLast_trim_not_mem_ws {P : Params} {X : Bytes} {x : Byte} (h : (trim P X).getLast? = some x) : x ∉ P.ws := by
  rw [trim_eq_rdropWhile] at h
  obtain ⟨hne, rfl⟩ := List.mem_getLast?_eq_getLast h
  exact mt List.contains_iff_mem.2 (List.rdropWhile_last_not _ _ hne)

theorem trim_idempotent (P : Params) (X : Bytes) : trim P (trim P X) = trim P X := by
  simp only [trim_eq_rdropWhile, List.rdropWhile_idempotent]

/-- Settles O43: `Trim` drops from the right while a byte is in `WS`, so what it drops is all in `WS`, it stops at a byte that
is not, and from there it drops nothing more. -/
theorem trimRemovesWhitespaceSuffix : Obligations.TrimRemovesWhitespaceSuffix := fun P X =>
  ⟨⟨trimmedSuffix P X, (trim_append_trimmedSuffix P X).symm, fun _ => mem_ws_of_mem_trimmedSuffix⟩,
    fun _ => getLast_trim_not_mem_ws, trim_idempotent P X⟩

/-! ### `Analyze` -/

theorem analyze_of_ne_nil {S : Bytes} (h : S ≠ []) : analyze S = .ok (countSymbols S, (countSymbols S).domain.length) :=
  if_neg h

/-- The counters outside a table's domain are 0, so all 256 sum to what the domain's sum to. -/
theorem sum_allSymbols (ft : FreqTable) : (allSymbols.map ft).sum = (ft.domain.map ft).sum := by
  have hzero : ((allSymbols.filter fun s => ¬ 0 < ft s).map ft).sum = 0 :=
    List.sum_eq_zero fun n hn => by
      obtain ⟨x, hx, rfl⟩ := List.mem_map.1 hn
      simpa using (List.mem_filter.1 hx).2
  rw [← List.sum_map_filter_add_sum_map_filter_not (fun s => 0 < ft s), hzero, Nat.add_zero, FreqTable.domain]

/-- Settles O44: each counter holds its Symbol's count, the counters of the domain sum to the length, and the domain is the
distinct Symbols, of which a non-empty text has at least one. -/
theorem analyzeCounts : Obligations.AnalyzeCounts := by
  refine ⟨rfl, fun S hS => ⟨countSymbols S, (countSymbols S).domain.length, analyze_of_ne_nil hS, countSymbols_eq S,
    (sum_allSymbols _).trans (sum_domain S), domain_length S, List.length_pos_iff.2 (domain_ne_nil hS), domain_length_le _, ?_⟩⟩
  rw [domain_length]
  exact (List.dedup_sublist S).length_le

/-! ### The order of the Symbols -/

/-- The frequency table of a text depends only on the multiset of its Symbols (R83). -/
theorem countSymbols_perm {S S' : Bytes} (h : S.Perm S') : countSymbols S = countSymbols S' :=
  funext fun x => by rw [countSymbols_eq, countSymbols_eq, h.count_eq]

theorem analyze_perm {S S' : Bytes} (h : S.Perm S') : analyze S = analyze S' := by
  by_cases hS : S = []
  · subst hS
    rw [h.nil_eq]
  · have hS' : S' ≠ [] := fun h' => hS (h' ▸ h).eq_nil
    rw [analyze_of_ne_nil hS, analyze_of_ne_nil hS', countSymbols_perm h]

/-- Settles O45: `Analyze` and `Build` see a text through its counters alone. -/
theorem treeIgnoresInputOrder : Obligations.TreeIgnoresInputOrder := fun _ _ h =>
  ⟨analyze_perm h, congrArg build (countSymbols_perm h)⟩

end Sys2Proof.Machine
end

section
/-! The tree builder (41_tree_builder.md R90 to R96): what one extraction takes, and two invariants of the merge loop: the shape
of the nodes in the queue, and the order of the frequencies of the nodes made so far. -/

namespace Sys2Proof.Machine

/-! ### `ExtractMin` -/

/-- Settles O46: only the empty queue has no minimum, an extraction permutes the queue, and no key left in it is less than the
key taken. -/
theorem extractMinTakesLeast : Obligations.ExtractMinTakesLeast := fun _ =>
  ⟨fun hne =>
    let ⟨⟨m, rest⟩, h⟩ := Option.ne_none_iff_exists'.1 (mt extractMin_eq_none.1 hne)
    ⟨m, rest, h⟩,
    fun _ _ h => ⟨extractMin_perm h, extractMin_least h⟩⟩

/-! ### One merge -/

/-- What holds of every node of the queue holds of the two merged and of those that stay. -/
theorem Merge.forall_mem {pq rest : Queue} {a b : HuffNode} (hm : Merge pq a b rest) {p : HuffNode → Prop} :
    (∀ n ∈ pq, p n) ↔ p a ∧ p b ∧ ∀ n ∈ rest, p n := by
  simp [← hm.perm.mem_iff]

/-- The internal slots of a queue's trees. -/
abbrev Queue.slots (pq : Queue) : List (Nat × Nat × Nat × Nat) := pq.flatMap HuffNode.slots

theorem initialQueue_slots (ft : FreqTable) : (initialQueue ft).slots = [] := by
  simp [Queue.slots, initialQueue, HuffNode.slots]

/-- A merge fills one more slot, number `256 + k` (R93). -/
theorem Merge.slots_perm {pq rest : Queue} {a b : HuffNode} (hm : Merge pq a b rest) (k : Nat) :
    (Queue.slots (mergeNode k a b :: rest)).Perm ((256 + k, a.freq + b.freq, a.index, b.index) :: pq.slots) := by
  have hpq : (a.slots ++ b.slots ++ Queue.slots rest).Perm pq.slots := by
    simpa [Queue.slots] using hm.perm.flatMap_right HuffNode.slots
  have hnew : Queue.slots (mergeNode k a b :: rest) =
      a.slots ++ b.slots ++ (256 + k, a.freq + b.freq, a.index, b.index) :: Queue.slots rest := by
    simp [Queue.slots, mergeNode, HuffNode.slots]
  rw [hnew]
  exact List.perm_middle.trans (hpq.cons _)

/-! ### The shape of the nodes -/

/-- The facts about one node, and all nodes below it, that do not speak of the rest of the queue (R91, R93, R96). -/
structure HuffNode.WellBuilt (ft : FreqTable) (n : HuffNode) : Prop where
  counts : n.leavesCount ft
  sums : n.sumsOk
  older : n.childrenOlder
  ordered : n.childrenOrdered

theorem wellBuilt_leaf (ft : FreqTable) (s : Byte) : (HuffNode.leaf s (ft s)).WellBuilt ft :=
  ⟨rfl, trivial, trivial, trivial⟩

theorem wellBuilt_mergeNode {ft : FreqTable} {k : Nat} {a b : HuffNode} (ha : a.WellBuilt ft) (hb : b.WellBuilt ft)
    (hia : a.index < 256 + k) (hib : b.index < 256 + k) (hkey : a.freq < b.freq ∨ a.freq = b.freq ∧ a.index < b.index) :
    (mergeNode k a b).WellBuilt ft where
  counts := ⟨ha.counts, hb.counts⟩
  sums := ⟨rfl, ha.sums, hb.sums⟩
  older := ⟨hia, hib, ha.older, hb.older⟩
  ordered := ⟨hkey, ha.ordered, hb.ordered⟩

/-- The invariant of the merge loop before merge `k`: the nodes in the queue are well built, their indices are distinct and
below the next free slot, and the merges so far filled the slots from 256 on. -/
structure QueueShape (ft : FreqTable) (k : Nat) (pq : Queue) : Prop where
  wellBuilt : ∀ n ∈ pq, n.WellBuilt ft
  index_lt : ∀ n ∈ pq, n.index < 256 + k
  index_nodup : (pq.map HuffNode.index).Nodup
  slots : (pq.slots.map Prod.fst).Perm (List.range' 256 k)

theorem queueShape_initialQueue (ft : FreqTable) : QueueShape ft 0 (initialQueue ft) where
  wellBuilt := by simp [initialQueue, wellBuilt_leaf]
  index_lt := by simpa [initialQueue, HuffNode.index] using fun s _ => s.isLt
  index_nodup := by
    rw [show (initialQueue ft).map HuffNode.index = ft.domain.map BitVec.toNat by simp [initialQueue, HuffNode.index]]
    exact (nodup_domain ft).map fun _ _ => BitVec.eq_of_toNat_eq
  slots := by simp [initialQueue_slots]

/-- In a queue of distinct indices the key of the first node extracted is strictly below that of the second (R92). -/
theorem Merge.key_lt {pq rest : Queue} {a b : HuffNode} (hm : Merge pq a b rest) (hn : (pq.map HuffNode.index).Nodup) :
    a.freq < b.freq ∨ a.freq = b.freq ∧ a.index < b.index := by
  have hne : a.index ≠ b.index := by
    have := (hm.perm.map HuffNode.index).nodup_iff.2 hn
    simp only [List.map_cons, List.nodup_cons, List.mem_cons, not_or] at this
    exact this.1.1
  rcases hm.key with h | ⟨hf, hi⟩
  · exact .inl h
  · exact .inr ⟨hf, lt_of_le_of_ne hi hne⟩

/-- A merge keeps the invariant. -/
theorem QueueShape.merge {ft : FreqTable} {k : Nat} {pq rest : Queue} {a b : HuffNode} (h : QueueShape ft k pq)
    (hm : Merge pq a b rest) : QueueShape ft (k + 1) (mergeNode k a b :: rest) := by
  obtain ⟨hwa, hwb, hwrest⟩ := hm.forall_mem.1 h.wellBuilt
  obtain ⟨hia, hib, hirest⟩ := hm.forall_mem.1 h.index_lt
  have hnodup : (rest.map HuffNode.index).Nodup :=
    ((hm.perm.map HuffNode.index).nodup_iff.2 h.index_nodup).of_cons.of_cons
  refine ⟨List.forall_mem_cons.2 ⟨wellBuilt_mergeNode hwa hwb hia hib (hm.key_lt h.index_nodup), hwrest⟩,
    List.forall_mem_cons.2 ⟨Nat.lt_succ_self _, fun n hn => (hirest n hn).trans (Nat.lt_succ_self _)⟩,
    List.nodup_cons.2 ⟨fun hmem => ?_, hnodup⟩, ?_⟩
  · obtain ⟨n, hn, hidx⟩ := List.mem_map.1 hmem
    exact (hirest n hn).ne hidx
  · rw [List.range'_1_concat]
    exact ((hm.slots_perm k).map _).trans ((h.slots.cons _).trans (List.perm_append_singleton _ _).symm)

/-- When children are older than their parents, no slot of a tree lies above its root. -/
theorem HuffNode.slot_le_index {n : HuffNode} (h : n.childrenOlder) : ∀ i ∈ n.slots.map Prod.fst, i ≤ n.index := by
  induction n with
  | leaf s f => simp [HuffNode.slots]
  | internal i f l r ihl ihr =>
    obtain ⟨hl, hr, hol, hor⟩ := h
    simp only [HuffNode.slots, List.map_append, List.map_cons, List.map_nil, List.mem_append, List.mem_singleton]
    rintro j ((hj | hj) | rfl)
    · exact (ihl hol j hj).trans hl.le
    · exact (ihr hor j hj).trans hr.le
    · exact le_rfl

/-- A node with one leaf is that leaf; its Symbol is the only one. -/
theorem HuffNode.eq_leaf_of_symbols_length {n : HuffNode} (h : n.symbols.length = 1) : ∃ x, n = .leaf x n.freq := by
  cases n with
  | leaf s f => exact ⟨s, rfl⟩
  | internal i f l r =>
    have := (HuffNode.internal i f l r).depth_lt_symbols
    simp only [HuffNode.depth] at this
    omega

/-- A root whose internal nodes fill `m + 1` slots from 256 on is in the last of them (R95). -/
theorem HuffNode.index_eq_of_slots_perm {n : HuffNode} {m : Nat} (ho : n.childrenOlder)
    (hs : (n.slots.map Prod.fst).Perm (List.range' 256 (m + 1))) : n.index = 256 + m := by
  have hmem : ∀ i, i ∈ n.slots.map Prod.fst ↔ 256 ≤ i ∧ i < 256 + (m + 1) := fun i => by
    rw [hs.mem_iff, List.mem_range'_1]
  have hle := slot_le_index ho _ ((hmem (256 + m)).2 (by omega))
  cases n with
  | leaf s f => exact absurd ((hmem 256).2 (by omega)) (by simp [HuffNode.slots])
  | internal i f l r =>
    have hroot := (hmem i).1 (by simp [HuffNode.slots])
    simp only [HuffNode.index] at hle ⊢
    omega

/-- Settles O47: the merge loop keeps `QueueShape`; the leaves and the root's frequency are those of `build_symbols_freq`, and
depth, lone leaf and root index follow from the leaves and the slots. -/
theorem buildTreeShape : Obligations.BuildTreeShape := by
  intro S hS
  obtain ⟨root, hroot, hshape⟩ := build_induction S hS (QueueShape (countSymbols S)) (queueShape_initialQueue _)
    fun k pq a b rest h hm => h.merge hm
  obtain ⟨hsym, hfreq⟩ := build_symbols_freq hS hroot
  obtain ⟨hcounts, hsums, holder, hordered⟩ := hshape.wellBuilt root List.mem_cons_self
  have hslots : (root.slots.map Prod.fst).Perm (List.range' 256 (S.dedup.length - 1)) := by
    simpa [Queue.slots] using hshape.slots
  have hleaves : root.symbols.length = S.dedup.length := hsym.length_eq
  have hdepth : root.depth ≤ S.dedup.length - 1 := by have := root.depth_lt_symbols; omega
  refine ⟨root, hroot, hfreq, hsym, hcounts, hsums, holder, hordered, hslots, hdepth, fun h1 => ?_, fun h2 => ?_⟩
  · rw [← hfreq]
    exact HuffNode.eq_leaf_of_symbols_length (hleaves.trans h1)
  · obtain ⟨m, hm⟩ := Nat.exists_eq_add_of_le' h2
    rw [hm] at hslots ⊢
    exact HuffNode.index_eq_of_slots_perm holder hslots

/-! ### The order of the frequencies -/

/-- The invariant of the merge loop before merge `k`: the slots filled so far are below `256 + k` and their frequencies rise with
the slot number, and no two nodes in the queue have a sum below any of them, so that the next merge cannot fall below either. -/
structure FreqsRise (k : Nat) (pq : Queue) : Prop where
  slot_lt : ∀ s ∈ pq.slots, s.1 < 256 + k
  rise : ∀ s ∈ pq.slots, ∀ t ∈ pq.slots, s.1 < t.1 → s.2.1 ≤ t.2.1
  le_sums : ∀ s ∈ pq.slots, pq.Pairwise fun x y => s.2.1 ≤ x.freq + y.freq

theorem freqsRise_initialQueue (ft : FreqTable) : FreqsRise 0 (initialQueue ft) := by
  constructor <;> simp [initialQueue_slots]

/-- What lies below the sums of all pairs in the queue lies below the frequency of the merged node. -/
theorem Merge.sum_le {pq rest : Queue} {a b : HuffNode} (hm : Merge pq a b rest) {f : Nat}
    (h : pq.Pairwise fun x y => f ≤ x.freq + y.freq) : f ≤ a.freq + b.freq := by
  have := (hm.perm.pairwise_iff fun {x y} hxy => by rwa [Nat.add_comm]).2 h
  exact List.rel_of_pairwise_cons this List.mem_cons_self

/-- After the merge every pair in the queue has at least the sum of the two merged, which were the least. -/
theorem Merge.le_sums {pq rest : Queue} {a b : HuffNode} (hm : Merge pq a b rest) (k : Nat) {f : Nat}
    (hf : f ≤ a.freq + b.freq) : (mergeNode k a b :: rest).Pairwise fun x y => f ≤ x.freq + y.freq := by
  have hrest : ∀ x ∈ rest, ∀ y ∈ rest, f ≤ x.freq + y.freq := fun x hx y hy => by
    have := hm.least x hx
    have := hm.least y hy
    omega
  exact List.pairwise_cons.2 ⟨fun y _ => hf.trans (Nat.le_add_right _ _), List.pairwise_of_forall_mem_list hrest⟩

/-- A merge keeps the invariant. -/
theorem FreqsRise.merge {k : Nat} {pq rest : Queue} {a b : HuffNode} (h : FreqsRise k pq) (hm : Merge pq a b rest) :
    FreqsRise (k + 1) (mergeNode k a b :: rest) := by
  have hmem : ∀ s, s ∈ Queue.slots (mergeNode k a b :: rest) ↔
      s = (256 + k, a.freq + b.freq, a.index, b.index) ∨ s ∈ pq.slots := fun s => by
    rw [(hm.slots_perm k).mem_iff, List.mem_cons]
  have hsum : ∀ s ∈ pq.slots, s.2.1 ≤ a.freq + b.freq := fun s hs => hm.sum_le (h.le_sums s hs)
  constructor
  · intro s hs
    rcases (hmem s).1 hs with rfl | hs
    · exact Nat.lt_succ_self _
    · exact (h.slot_lt s hs).trans (Nat.lt_succ_self _)
  · intro s hs t ht hst
    rcases (hmem s).1 hs with rfl | hs <;> rcases (hmem t).1 ht with rfl | ht
    · exact le_rfl
    · exact absurd hst (h.slot_lt t ht).not_gt
    · exact hsum s hs
    · exact h.rise s hs t ht hst
  · intro s hs
    rcases (hmem s).1 hs with rfl | hs
    · exact hm.le_sums k le_rfl
    · exact hm.le_sums k (hsum s hs)

/-- `Build` makes a tree of a text only when the text is not empty. -/
theorem ne_nil_of_build {S : Bytes} {root : HuffNode} (h : build (countSymbols S) = some root) : S ≠ [] := by
  rintro rfl
  have hq : initialQueue (countSymbols []) = [] := List.length_eq_zero_iff.1 (initialQueue_length [])
  simp [build, hq, mergeLoop] at h

/-- Settles O48: the merge loop keeps `FreqsRise`. -/
theorem internalFrequenciesRise : Obligations.InternalFrequenciesRise := by
  intro S root h
  obtain ⟨root', hroot, hrise⟩ := build_induction S (ne_nil_of_build h) FreqsRise (freqsRise_initialQueue _)
    fun k pq a b rest h hm => h.merge hm
  obtain rfl : root' = root := Option.some.inj (hroot.symm.trans h)
  simpa [Queue.slots] using hrise.rise

end Sys2Proof.Machine
end

section
/-! The code-table generator's statements (42_code_table_generator.md R102 to R104). -/

namespace Sys2Proof.Machine

/-! ### Mutually inverse tables -/

/-- A Symbol has a code exactly when it is a leaf of the tree (R104 item 1). -/
theorem genCodes_ct_ne_nil_iff {root : HuffNode} (hn : root.symbols.Nodup) {s : Byte} :
    (genCodes root).ct s ≠ [] ↔ s ∈ root.symbols :=
  ⟨not_imp_comm.1 (genCodes_ct_of_not_mem root), genCodes_ct_ne_nil hn⟩

/-- The reverse table is the exact inverse of the code table (R104 item 2). -/
theorem mem_genCodes_rct_iff {root : HuffNode} (hn : root.symbols.Nodup) {c : BitString} {s : Byte} :
    (c, s) ∈ (genCodes root).rct ↔ (genCodes root).ct s = c ∧ c ≠ [] := by
  constructor
  · exact fun h => ⟨genCodes_ct_of_mem root hn h, genCodes_ne_nil root _ h⟩
  · rintro ⟨rfl, hne⟩
    have hs := (genCodes_ct_ne_nil_iff hn).1 hne
    rw [← genCodes_snd root] at hs
    obtain ⟨e, he, rfl⟩ := List.mem_map.1 hs
    rwa [genCodes_ct_of_mem root hn he]

/-- Settles O49: both tables are written by the same act, and no code is empty (R102, R103). -/
theorem tablesMutuallyInverse : Obligations.TablesMutuallyInverse := fun root hn =>
  ⟨genCodes_snd root, fun _ _ => mem_genCodes_rct_iff hn, fun _ => genCodes_ct_ne_nil_iff hn,
    fun e he => ⟨List.length_pos_of_ne_nil (genCodes_ne_nil root e he), genCodes_length_le root e he⟩⟩

/-! ### Codes apart and ascending -/

/-- Two codes part after a common beginning, the first with a left edge and the second with a right one: the shape of
two leaves' paths at their lowest common ancestor (R104 item 3). -/
def PartsLeftOf (c d : BitString) : Prop := ∃ p u v, c = p ++ false :: u ∧ d = p ++ true :: v

theorem PartsLeftOf.not_prefix {c d : BitString} (h : PartsLeftOf c d) : ¬ c <+: d ∧ ¬ d <+: c := by
  obtain ⟨p, u, v, rfl, rfl⟩ := h
  simp

theorem PartsLeftOf.lt {c d : BitString} (h : PartsLeftOf c d) : c < d := by
  obtain ⟨p, u, v, rfl, rfl⟩ := h
  exact List.append_left_lt (List.Lex.rel rfl)

/-- Of two entries of a subtree, the one listed first parts to the left of the other. -/
theorem codes_pairwise_partsLeftOf (n : HuffNode) (path : BitString) :
    (n.codes path).Pairwise fun e f => PartsLeftOf e.1 f.1 := by
  induction n generalizing path with
  | leaf s f => exact List.pairwise_singleton _ _
  | internal i f l r ihl ihr =>
    refine List.pairwise_append.2 ⟨ihl _, ihr _, fun e he g hg => ?_⟩
    obtain ⟨u, hu, -⟩ := codes_extend l _ e he
    obtain ⟨v, hv, -⟩ := codes_extend r _ g hg
    exact ⟨path, u, v, by simp [hu], by simp [hv]⟩

theorem genCodes_pairwise_partsLeftOf (root : HuffNode) :
    (genCodes root).rct.Pairwise fun e f => PartsLeftOf e.1 f.1 := by
  cases root with
  | leaf x f => exact List.pairwise_singleton _ _
  | internal i f l r => rw [genCodes_internal]; exact codes_pairwise_partsLeftOf _ _

/-- No code of a tree is an initial part of another (R104 item 3). -/
theorem genCodes_codesApart (root : HuffNode) : (genCodes root).rct.codesApart = true :=
  decide_eq_true ((genCodes_pairwise_partsLeftOf root).imp PartsLeftOf.not_prefix)

/-- Settles O50: two entries' paths part at their lowest common ancestor, the earlier entry's to the left. -/
theorem codesPrefixFreeAndAscending : Obligations.CodesPrefixFreeAndAscending := fun root =>
  ⟨genCodes_codesApart root, (genCodes_pairwise_partsLeftOf root).imp PartsLeftOf.lt⟩

/-! ### The complete code set -/

/-- Following the bits `P` down from a node at `path` reaches a leaf, if they last as long as the tree is deep. -/
theorem exists_codes_prefix (n : HuffNode) (path P : BitString) (h : n.depth ≤ P.length) :
    ∃ e ∈ n.codes path, e.1 <+: path ++ P := by
  induction n generalizing path P with
  | leaf s f => exact ⟨(path, s), List.mem_singleton_self _, List.prefix_append _ _⟩
  | internal i f l r ihl ihr =>
    cases P with
    | nil => exact absurd h (Nat.not_succ_le_zero _)
    | cons b P =>
      obtain ⟨hl, hr⟩ := max_le_iff.1 (Nat.le_of_succ_le_succ h)
      rw [List.append_cons]
      cases b with
      | false =>
        obtain ⟨e, he, hp⟩ := ihl (path ++ [false]) P hl
        exact ⟨e, List.mem_append_left _ he, hp⟩
      | true =>
        obtain ⟨e, he, hp⟩ := ihr (path ++ [true]) P hr
        exact ⟨e, List.mem_append_right _ he, hp⟩

/-- Settles O51: the bits lead from the root to a leaf, whose code they begin with. -/
theorem codeSetComplete : Obligations.CodeSetComplete := by
  refine ⟨fun i f l r P h => ?_, genCodes_leaf⟩
  rw [genCodes_internal]
  exact exists_codes_prefix (.internal i f l r) [] P h

end Sys2Proof.Machine
end

section
/-! The packer's outcome (43_bitstream_encoder.md R110, R111, R116), and why `COMPRESS` never meets its capacity check: a Huffman
tree's frequencies grow along a path like the Fibonacci numbers, so 65536 Symbols make no tree deeper than 22. -/

namespace Sys2Proof.Machine

/-! ### The outcome of `Pack` -/

/-- One Symbol without a code is an error, whatever the capacity (R111). -/
theorem pack_of_uncovered {P : Params} {S : Bytes} {ct : CodeTable} (h : ∃ x ∈ S, ct x = []) :
    pack P S ct = .error .unencodableSymbol := by
  obtain ⟨x, hx, hct⟩ := h
  exact if_pos (List.any_eq_true.2 ⟨x, hx, List.isEmpty_iff.2 hct⟩)

theorem streamBits_bytes (B : BitString) : (streamBits B).length / 8 = B.length / 8 + 2 := by
  rw [streamBits_length, Nat.mul_div_cancel_left _ (by decide)]

/-- A stream that does not fit is an error (R116). -/
theorem pack_of_overflow {P : Params} {S : Bytes} {ct : CodeTable} (hcov : ∀ x ∈ S, ct x ≠ [])
    (hcap : P.outCap < (concatCodes S ct).length / 8 + 2) : pack P S ct = .error .capacity := by
  rw [pack_of_covered hcov, streamBits_bytes, if_pos hcap]

/-- A stream that fits is delivered (R110). -/
theorem exists_pack_of_fits {P : Params} {S : Bytes} {ct : CodeTable} (hcov : ∀ x ∈ S, ct x ≠ [])
    (hcap : (concatCodes S ct).length / 8 + 2 ≤ P.outCap) : ∃ pk, pack P S ct = .ok pk := by
  rw [pack_of_covered hcov, streamBits_bytes, if_neg (Nat.not_lt.2 hcap)]
  exact ⟨_, rfl⟩

/-- Settles O52: the check of the Symbols comes first; then the stream's bytes, two more than the payload's whole bytes, are held
against the capacity. -/
theorem packOutcome : Obligations.PackOutcome := fun _ _ _ =>
  ⟨pack_of_uncovered, pack_of_overflow, exists_pack_of_fits⟩

/-! ### The depth of the tree -/

/-- The invariant of the merge loop that bounds the tree's depth: a node of depth `d` weighs at least `fib (d + 2)`, and no
node in the queue with it weighs less than `fib (d + 1)`. -/
structure FreqsOutgrowDepth (pq : Queue) : Prop where
  own : ∀ n ∈ pq, Nat.fib (n.depth + 2) ≤ n.freq
  others : ∀ n ∈ pq, ∀ m ∈ pq, Nat.fib (n.depth + 1) ≤ m.freq

theorem freqsOutgrowDepth_initialQueue (ft : FreqTable) : FreqsOutgrowDepth (initialQueue ft) := by
  have hleaf : ∀ n ∈ initialQueue ft, n.depth = 0 ∧ 1 ≤ n.freq := fun n hn => by
    obtain ⟨s, hs, rfl⟩ := List.mem_map.1 hn
    exact ⟨rfl, of_decide_eq_true (List.mem_filter.1 hs).2⟩
  constructor
  · intro n hn
    rw [(hleaf n hn).1]
    exact (hleaf n hn).2
  · intro n hn m hm
    rw [(hleaf n hn).1]
    exact (hleaf m hm).2

/-- A merge keeps the invariant. With `d` the depth of the deeper of the two merged, the lighter one weighs at least
`fib (d + 1)` and the heavier one at least `fib (d + 2)`, so their parent weighs at least `fib (d + 3)`; what stays in the queue is
not lighter than the heavier one. -/
theorem FreqsOutgrowDepth.merge {pq rest : Queue} {a b : HuffNode} (h : FreqsOutgrowDepth pq) (hm : Merge pq a b rest)
    (k : Nat) : FreqsOutgrowDepth (mergeNode k a b :: rest) := by
  obtain ⟨howna, hownb, hown⟩ := hm.forall_mem.1 h.own
  obtain ⟨hfroma, hfromb, hfrom⟩ := hm.forall_mem.1 h.others
  have hlight : Nat.fib (max a.depth b.depth + 1) ≤ a.freq := by
    rcases max_choice a.depth b.depth with hd | hd <;> rw [hd]
    · exact (hm.forall_mem.1 hfroma).1
    · exact (hm.forall_mem.1 hfromb).1
  have hheavy : Nat.fib (max a.depth b.depth + 2) ≤ b.freq := by
    rcases max_choice a.depth b.depth with hd | hd <;> rw [hd]
    · exact howna.trans hm.ordered
    · exact hownb
  have hparent : Nat.fib (max a.depth b.depth + 1 + 2) ≤ a.freq + b.freq := by
    rw [Nat.fib_add_two]
    exact Nat.add_le_add hlight hheavy
  constructor
  · exact List.forall_mem_cons.2 ⟨hparent, hown⟩
  · refine List.forall_mem_cons.2 ⟨List.forall_mem_cons.2 ⟨?_, ?_⟩, fun n hn => List.forall_mem_cons.2 ⟨?_, ?_⟩⟩
    · exact hheavy.trans (Nat.le_add_left _ _)
    · exact fun m hmem => hheavy.trans (hm.least m hmem).2
    · exact (hm.forall_mem.1 (hfrom n hn)).1.trans (Nat.le_add_right _ _)
    · exact (hm.forall_mem.1 (hfrom n hn)).2.2

/-- A text is at least as long as its tree's depth asks. -/
theorem build_fib_depth_le {S : Bytes} (hS : S ≠ []) :
    ∃ root, build (countSymbols S) = some root ∧ Nat.fib (root.depth + 2) ≤ S.length := by
  obtain ⟨root, hroot, h⟩ := build_induction S hS (fun _ => FreqsOutgrowDepth) (freqsOutgrowDepth_initialQueue _)
    fun k _ _ _ _ h hm => h.merge hm k
  exact ⟨root, hroot, (build_symbols_freq hS hroot).2 ▸ h.own root (List.mem_singleton_self _)⟩

/-- An admitted text's tree is at most 22 deep, as `fib 25 = 75025` is above `IN_CAP` (R6). -/
theorem depth_le_of_fib_le {d : Nat} (h : Nat.fib (d + 2) ≤ Config.hw.inCap) : d ≤ 22 := by
  by_contra hd
  have h25 : Nat.fib 25 ≤ Nat.fib (d + 2) := Nat.fib_mono (by omega)
  have : Nat.fib 25 = 75025 := by norm_num
  have : Config.hw.inCap = 65536 := rfl
  omega

/-! ### The length of the payload -/

theorem concatCodes_length_le {S : Bytes} {ct : CodeTable} {k : Nat} (h : ∀ x ∈ S, (ct x).length ≤ k) :
    (concatCodes S ct).length ≤ S.length * k := by
  rw [concatCodes, List.length_flatMap]
  simpa using List.sum_le_card_nsmul (S.map fun x => (ct x).length) k (by simpa using h)

/-- No code is longer than the tree is deep, a single leaf's apart, which has one bit (R104 item 4). -/
theorem genCodes_ct_length_le {root : HuffNode} (hn : root.symbols.Nodup) (x : Byte) :
    ((genCodes root).ct x).length ≤ max 1 root.depth := by
  by_cases hx : (genCodes root).ct x = []
  · simp [hx]
  · exact genCodes_length_le root _ ((mem_genCodes_rct_iff hn).2 ⟨rfl, hx⟩)

theorem trim_length_le (P : Params) (X : Bytes) : (trim P X).length ≤ X.length :=
  (List.rdropWhile_prefix (p := P.ws.contains) X).length_le

/-- The stream of an admitted text fits `OBUF`: at most 22 bits for each of at most 65536 Symbols (R116). -/
theorem exists_build_stream_fits {S : Bytes} (hS : S ≠ []) (hlen : S.length ≤ Config.hw.inCap) :
    ∃ root, build (countSymbols S) = some root ∧
      (concatCodes S (genCodes root).ct).length / 8 + 2 ≤ Config.hw.outCap := by
  obtain ⟨root, hroot, hfib⟩ := build_fib_depth_le hS
  have hdepth : root.depth ≤ 22 := depth_le_of_fib_le (hfib.trans hlen)
  have hnodup : root.symbols.Nodup := (build_symbols_freq hS hroot).1.nodup_iff.2 (List.nodup_dedup S)
  have hcodes : ∀ x ∈ S, ((genCodes root).ct x).length ≤ 22 := fun x _ =>
    (genCodes_ct_length_le hnodup x).trans (max_le (by decide) hdepth)
  have hbits : (concatCodes S (genCodes root).ct).length ≤ 65536 * 22 :=
    (concatCodes_length_le hcodes).trans (Nat.mul_le_mul_right 22 hlen)
  refine ⟨root, hroot, ?_⟩
  have : Config.hw.outCap = 524288 := rfl
  omega

/-! ### `COMPRESS` completes -/

/-- The stages in order, each of which succeeds (R154). -/
theorem compressText_of_stages {P : Params} {X : Bytes} {root : HuffNode} {pk : Packed} (hS : trim P X ≠ [])
    (hroot : build (countSymbols (trim P X)) = some root) (hpack : pack P (trim P X) (genCodes root).ct = .ok pk) :
    ∃ r, compressText P X = .ok r := by
  simp [compressText, analyze_of_ne_nil hS, hroot, hpack]

theorem exists_compressText {X : Bytes} (hS : trim Config.hw X ≠ []) (hlen : X.length ≤ Config.hw.inCap) :
    ∃ r, compressText Config.hw X = .ok r := by
  obtain ⟨root, hroot, hfits⟩ := exists_build_stream_fits hS ((trim_length_le _ X).trans hlen)
  obtain ⟨pk, hpack⟩ := exists_pack_of_fits (genCodes_covers hS hroot) hfits
  exact compressText_of_stages hS hroot hpack

/-- Settles O15: all stages succeed on an admitted text, because its tree is not deep enough for the stream to overflow `OBUF`;
of what `COMPRESS` can do, delivery and completion are left. -/
theorem compressNeverOverflows : Obligations.CompressNeverOverflows := by
  intro s hilen hS
  have hlen : s.inputBytes.length = s.ilen.toNat := State.memRead_length s .ibuf 0 _
  obtain ⟨r, hr⟩ := exists_compressText hS (hlen ▸ hilen)
  refine ⟨s.compress Config.hw, rfl, ?_⟩
  rcases compress_cases Config.hw s with ⟨e, -, ⟨hover, -⟩ | ⟨-, he⟩⟩ | ⟨r', -, -, hdone⟩
  · exact absurd hilen (Nat.not_le.2 hover)
  · rw [hr] at he
    cases he
  · rw [hdone]
    exact ⟨rfl, rfl, rfl, rfl⟩

end Sys2Proof.Machine
end

section
/-! What the loader accepts (45_codebook_loader.md R130 to R135): an accepted artifact is the rendering of the table it loads to,
which is well formed. -/

namespace Sys2Proof.Machine

/-! ### One line -/

/-- A line is loaded when the parser accepts it and its entry's Symbol and code are new (R133, R134). -/
theorem loadLines_cons_ok {ln : Bytes} {lns : List Bytes} {t t' : RevTable} (h : loadLines (ln :: lns) t = .ok t') :
    ∃ e, parseLine ln = some e ∧ (t.any (fun f => f.2 == e.2) || t.any (fun f => f.1 == e.1)) = false ∧
      loadLines lns (t ++ [e]) = .ok t' := by
  rw [loadLines] at h
  split at h
  · cases h
  · next e he =>
    split_ifs at h with hdup
    exact ⟨e, he, Bool.eq_false_of_not_eq_true hdup, h⟩

theorem nodup_map_append_singleton {α : Type} {f : Entry → α} {t : RevTable} {e : Entry} (h : (t.map f).Nodup)
    (hnew : ∀ x ∈ t, f x ≠ f e) : ((t ++ [e]).map f).Nodup := by
  rw [List.map_append, List.map_singleton, ← List.concat_eq_append, List.nodup_concat]
  refine ⟨fun hmem => ?_, h⟩
  obtain ⟨x, hx, hxe⟩ := List.mem_map.1 hmem
  exact hnew x hx hxe

/-- An entry with a well-formed code, a new Symbol and a new code keeps the table well formed (R30). -/
theorem RevTable.wf_append_singleton {t : RevTable} {e : Entry} (ht : t.wf = true) (hcode : codeWf e.1 = true)
    (hfresh : (t.any (fun f => f.2 == e.2) || t.any (fun f => f.1 == e.1)) = false) : RevTable.wf (t ++ [e]) = true := by
  obtain ⟨hcodes, hfst, hsnd⟩ := RevTable.wf_iff.1 ht
  simp only [Bool.or_eq_false_iff, List.any_eq_false, beq_iff_eq] at hfresh
  obtain ⟨hsym, hbits⟩ := hfresh
  exact RevTable.wf_iff.2 ⟨List.forall_mem_append.2 ⟨hcodes, List.forall_mem_singleton.2 hcode⟩,
    nodup_map_append_singleton hfst hbits, nodup_map_append_singleton hsnd hsym⟩

/-! ### All lines -/

/-- Loading lines after a well-formed table appends entries whose renderings are the lines, and keeps it well formed (R134,
R135). -/
theorem loadLines_ok {lns : List Bytes} {t t' : RevTable} (h : loadLines lns t = .ok t') (ht : t.wf = true) :
    ∃ u, t' = t ++ u ∧ u.map lineBody = lns ∧ t'.wf = true := by
  induction lns generalizing t with
  | nil =>
    cases h
    exact ⟨[], (List.append_nil _).symm, rfl, ht⟩
  | cons ln lns ih =>
    obtain ⟨e, he, hfresh, hrest⟩ := loadLines_cons_ok h
    obtain ⟨hline, hcode⟩ := lineBody_of_parseLine he
    obtain ⟨u, rfl, hlines, hwf⟩ := ih hrest (RevTable.wf_append_singleton ht hcode hfresh)
    exact ⟨e :: u, by simp, by rw [List.map_cons, hline, hlines], hwf⟩

/-- An accepted artifact is terminated, and its lines load (R130, R131). -/
theorem cbLoad_ok {T : Bytes} {t : RevTable} (h : cbLoad T = .ok t) :
    ∃ U, T = U ++ [charLF] ∧ loadLines (splitLF U) [] = .ok t := by
  rcases List.eq_nil_or_concat' T with rfl | ⟨U, z, rfl⟩
  · cases h
  · rw [cbLoad, List.getLast?_concat, List.dropLast_concat] at h
    dsimp only at h
    split_ifs at h with hz
    exact ⟨U, by rw [hz], h⟩

/-- The artifact is its lines with the terminators put back (R120, R121). -/
theorem cbSer_eq_flatMap_lines (t : RevTable) : cbSer t = (t.map lineBody).flatMap (· ++ [charLF]) := by
  rw [cbSer, List.flatMap_map]

/-- Settles O55: every line of an accepted artifact is the rendering of its entry, so putting the terminators back gives both
the artifact and the serialized table; a split has at least one line, and distinct Symbols bound the entries. -/
theorem loaderAcceptsOnlyArtifacts : Obligations.LoaderAcceptsOnlyArtifacts := by
  refine fun T => ⟨fun t h => ?_, fun e => cbLoad_error⟩
  obtain ⟨U, rfl, hload⟩ := cbLoad_ok h
  obtain ⟨u, hu, hlines, hwf⟩ := loadLines_ok hload rfl
  obtain rfl : t = u := hu
  have hser : cbSer t = U ++ [charLF] := by rw [cbSer_eq_flatMap_lines, hlines, flatMap_splitLF]
  have hne : t ≠ [] := fun ht => splitLF_ne_nil U (by rw [← hlines, ht, List.map_nil])
  exact ⟨hser, hwf, hne, cbLoad_length_le h⟩

end Sys2Proof.Machine
end

section
/-! The unpacker (46_bitstream_decoder.md R140 to R148): how the greedy walk cuts bits into codes, the outcome of `Unpack`, and that
it gives back what `Pack` packed. -/

namespace Sys2Proof.Machine

/-! ### The matches of the walk -/

/-- An entry the walk can match: no code of the table is a proper initial part of its code (R145, R147). -/
structure ShortestMatch (t : RevTable) (e : Entry) : Prop where
  mem : e ∈ t
  shortest : ∀ f ∈ t, f.1 <+: e.1 → f.1 = e.1

/-- When no code begins another, every entry can be matched (R29, R30). -/
theorem shortestMatch_of_codesApart {t : RevTable} (h : t.codesApart = true) {e : Entry} (he : e ∈ t) : ShortestMatch t e := by
  refine ⟨he, fun f hf hp => by_contra fun hne => ?_⟩
  have hapart : t.Pairwise fun e f => ¬ e.1 <+: f.1 ∧ ¬ f.1 <+: e.1 := of_decide_eq_true h
  have hsymm : Std.Symm fun e f : Entry => ¬ e.1 <+: f.1 ∧ ¬ f.1 <+: e.1 := ⟨fun _ _ => And.symm⟩
  exact (hapart.forall hf he fun hfe => hne (congrArg Prod.fst hfe)).1 hp

/-- A well-formed table has no empty code (R30). -/
theorem RevTable.codes_ne_nil {t : RevTable} (hwf : t.wf = true) : ∀ e ∈ t, e.1 ≠ [] := fun e he hnil => by
  obtain ⟨hcodes, -, -⟩ := RevTable.wf_iff.1 hwf
  have := hcodes e he
  simp [codeWf, hnil] at this

/-! ### How the walk cuts the bits -/

/-- The answer `r` of a walk cuts the bits `B` into the codes of the entries `es`, whose Symbols it emits, and a leftover that
begins with no code (R145, R146). -/
structure Cuts (t : RevTable) (B : BitString) (r : Bytes × BitString) (es : List Entry) : Prop where
  matched : ∀ e ∈ es, ShortestMatch t e
  bits : B = es.flatMap Prod.fst ++ r.2
  emitted : r.1 = es.map Prod.snd
  leftover : ∀ e ∈ t, ¬ e.1 <+: r.2

/-- One more match at the front. -/
theorem Cuts.cons {t : RevTable} {B : BitString} {r : Bytes × BitString} {es : List Entry} (h : Cuts t B r es) {e : Entry}
    (he : ShortestMatch t e) : Cuts t (e.1 ++ B) (e.2 :: r.1, r.2) (e :: es) where
  matched := List.forall_mem_cons.2 ⟨he, h.matched⟩
  bits := by rw [List.flatMap_cons, List.append_assoc, ← h.bits]
  emitted := by rw [List.map_cons, ← h.emitted]
  leftover := h.leftover

/-- When no code begins the candidate, the entry that one more bit completes is a shortest match. -/
theorem shortestMatch_of_matchCode {t : RevTable} {cand : BitString} {b : Bool} {s : Byte} (hcand : ∀ e ∈ t, ¬ e.1 <+: cand)
    (hm : matchCode t (cand ++ [b]) = some s) : ShortestMatch t (cand ++ [b], s) :=
  ⟨mem_of_matchCode hm, fun f hf hp => (List.prefix_concat_iff.1 hp).resolve_right (hcand f hf)⟩

/-- When neither the candidate nor the candidate with one more bit completes a code, no code begins the longer one. -/
theorem not_prefix_of_matchCode_eq_none {t : RevTable} {cand : BitString} {b : Bool} (hcand : ∀ e ∈ t, ¬ e.1 <+: cand)
    (hm : matchCode t (cand ++ [b]) = none) : ∀ e ∈ t, ¬ e.1 <+: cand ++ [b] := fun e he hp =>
  (List.prefix_concat_iff.1 hp).elim (matchCode_eq_none.1 hm e he) (hcand e he)

/-- A walk from a candidate that begins with no code cuts the candidate and the bits. -/
theorem exists_cuts {t : RevTable} (hne : ∀ e ∈ t, e.1 ≠ []) (P cand : BitString) (hcand : ∀ e ∈ t, ¬ e.1 <+: cand) :
    ∃ es, Cuts t (cand ++ P) (walk t P cand []) es := by
  induction P generalizing cand with
  | nil => exact ⟨[], by simp, by simp [walk], rfl, hcand⟩
  | cons b P ih =>
    rw [List.append_cons, walk]
    cases hm : matchCode t (cand ++ [b]) with
    | none => exact ih _ (not_prefix_of_matchCode_eq_none hcand hm)
    | some s =>
      obtain ⟨es, hcuts⟩ := ih [] fun e he hp => hne e he (List.prefix_nil.1 hp)
      dsimp only
      rw [walk_append]
      exact ⟨_, hcuts.cons (shortestMatch_of_matchCode hcand hm)⟩

/-- A walk over all bits of a stream cuts them (R145). -/
theorem exists_cuts_of_wf {t : RevTable} (hwf : t.wf = true) (P : BitString) : ∃ es, Cuts t P (walk t P [] []) es :=
  exists_cuts (RevTable.codes_ne_nil hwf) P [] fun e he hp => RevTable.codes_ne_nil hwf e he (List.prefix_nil.1 hp)

/-- Settles O57: the walk emits Symbols of shortest matches only, and an entry is known by its Symbol as by its code. -/
theorem longerMatchNeverEmitted : Obligations.LongerMatchNeverEmitted := by
  intro t e f P hwf he hf hne hp hmem
  obtain ⟨-, hcodes, hsyms⟩ := RevTable.wf_iff.1 hwf
  obtain ⟨es, hcuts⟩ := exists_cuts_of_wf hwf P
  rw [hcuts.emitted] at hmem
  obtain ⟨e', he', hsym⟩ := List.mem_map.1 hmem
  obtain ⟨hmem', hshortest⟩ := hcuts.matched e' he'
  obtain rfl : e' = e := List.inj_on_of_nodup_map hsyms hmem' he hsym
  exact hne (List.inj_on_of_nodup_map hcodes he hf (hshortest f hf hp).symm)

/-! ### The walk over a concatenation of codes -/

/-- No proper initial part of a shortest match's code is a code. -/
theorem ShortestMatch.matchCode_eq_none_of_prefix {t : RevTable} {u v : BitString} {b : Bool} {s : Byte}
    (he : ShortestMatch t (u ++ [b], s)) (hv : v <+: u) : matchCode t v = none :=
  matchCode_eq_none.2 fun f hf hfv => by
    have hcode : v = u ++ [b] := hfv ▸ he.shortest f hf (hfv ▸ hv.trans (List.prefix_append _ _))
    simpa [hcode] using hv.length_le

/-- The bits of a shortest match, walked from an empty candidate, emit its Symbol and leave the candidate empty. -/
theorem walk_code_append {t : RevTable} (hwf : t.wf = true) {e : Entry} (he : ShortestMatch t e) (P : BitString) (O : Bytes) :
    walk t (e.1 ++ P) [] O = walk t P [] (O ++ [e.2]) := by
  obtain ⟨c, s⟩ := e
  obtain ⟨u, b, rfl⟩ := (List.eq_nil_or_concat' c).resolve_left (RevTable.codes_ne_nil hwf _ he.mem)
  have hmatch : matchCode t (u ++ [b]) = some s := matchCode_of_mem (RevTable.wf_iff.1 hwf).2.1 he.mem
  rw [List.append_assoc, walk_no_match t u _ [] O fun v _ hv => he.matchCode_eq_none_of_prefix hv, List.nil_append,
    List.singleton_append, walk, hmatch]

/-- A concatenation of codes of shortest matches emits their Symbols and leaves nothing over (R147 items 1 and 3). -/
theorem walk_flatMap_codes {t : RevTable} (hwf : t.wf = true) {es : List Entry} (hes : ∀ e ∈ es, ShortestMatch t e) (O : Bytes) :
    walk t (es.flatMap Prod.fst) [] O = (O ++ es.map Prod.snd, []) := by
  induction es generalizing O with
  | nil => simp [walk]
  | cons e es ih =>
    obtain ⟨he, hes⟩ := List.forall_mem_cons.1 hes
    rw [List.flatMap_cons, walk_code_append hwf he, ih hes, List.map_cons, List.append_assoc, List.singleton_append]

/-- Settles O58: the walk cuts any bits; when the codes are apart, every entry is a shortest match, and a concatenation of codes is
walked code by code. -/
theorem walkDecodesConcatenation : Obligations.WalkDecodesConcatenation := by
  refine ⟨fun t P hwf => ?_, fun t es hwf hapart hes => ?_⟩
  · obtain ⟨es, hmatched, hbits, hemitted, hleft⟩ := exists_cuts_of_wf hwf P
    exact ⟨es, fun e he => (hmatched e he).mem, hbits, hemitted, hleft⟩
  · exact walk_flatMap_codes hwf (fun e he => shortestMatch_of_codesApart hapart (hes e he)) []

/-! ### The outcome of `Unpack` -/

theorem headerWf_iff {p : Byte} : headerWf p = true ↔ 1 ≤ p.toNat ∧ p.toNat ≤ 8 := by
  simp [headerWf]

/-- A header outside 1..8 is an error (R141). -/
theorem unpack_of_not_headerWf (P : Params) {p : Byte} (rest : Bytes) (t : RevTable) (h : headerWf p = false) :
    unpack P (p :: rest) t = .error .corruptStream :=
  if_pos (by have := mt headerWf_iff.2 (Bool.eq_false_iff.1 h); omega)

/-- The bits of a stream between its header `p` and its padding (R142 to R144). -/
def payloadBits (p : Byte) (rest : Bytes) : BitString := (bytesToBits rest).take (8 * rest.length - p.toNat)

theorem payloadBits_length (p : Byte) (rest : Bytes) : (payloadBits p rest).length = 8 * rest.length - p.toNat := by
  rw [payloadBits, List.length_take, bytesToBits_length, Nat.min_eq_left (Nat.sub_le _ _)]

/-- What `Unpack` makes of the walk's answer on a payload of `n` bits before `p` bits of padding (R146, R148). -/
def unpackResult (P : Params) (r : Bytes × BitString) (n p : Nat) : Except ErrorKind Unpacked :=
  if r.2 ≠ [] then .error .corruptStream
  else if P.outCap < r.1.length then .error .capacity
  else .ok { out := r.1, bitLen := n, pad := p }

/-- With a header of 1..8 and a byte after it, the walk over the payload decides (R143 to R148). -/
theorem unpack_of_headerWf (P : Params) {p : Byte} {rest : Bytes} (t : RevTable) (h : headerWf p = true) (hrest : rest ≠ []) :
    unpack P (p :: rest) t =
      unpackResult P (walk t (payloadBits p rest) [] []) (8 * rest.length - p.toNat) p.toNat := by
  obtain ⟨hlow, hhigh⟩ := headerWf_iff.1 h
  have hlen := List.length_pos_iff.2 hrest
  have hpay := payloadBits_length p rest
  rw [payloadBits] at hpay ⊢
  simp only [unpack, bytesToBits_length]
  rw [if_neg (by omega), if_neg (by omega), hpay]
  rfl

/-- A header alone promises more bits than there are (R142). -/
theorem unpack_singleton (P : Params) (p : Byte) (t : RevTable) : unpack P [p] t = .error .corruptStream := by
  cases h : headerWf p with
  | false => exact unpack_of_not_headerWf P [] t h
  | true =>
    obtain ⟨hlow, hhigh⟩ := headerWf_iff.1 h
    simp only [unpack, bytesToBits_length, List.length_nil]
    rw [if_neg (by omega), if_pos (by omega)]

/-- Settles O56: the header is checked first, then that there are bits to remove the padding from; then the walk's answer is
taken, leftover before capacity. -/
theorem unpackOutcome : Obligations.UnpackOutcome := by
  refine fun P t => ⟨rfl, fun p rest => unpack_of_not_headerWf P rest t, fun p => unpack_singleton P p t,
    fun p rest h hrest => ?_⟩
  have hres := unpack_of_headerWf P t h hrest
  exact ⟨fun hleft => hres.trans (if_pos hleft),
    fun hdone hcap => hres.trans ((if_neg (not_not.2 hdone)).trans (if_pos hcap)),
    fun hdone hcap => hres.trans ((if_neg (not_not.2 hdone)).trans (if_neg (Nat.not_lt.2 hcap)))⟩

/-! ### No overflow -/

theorem outCap_lt_of_unpackResult {P : Params} {r : Bytes × BitString} {n p : Nat}
    (h : unpackResult P r n p = .error .capacity) : P.outCap < r.1.length := by
  simp only [unpackResult] at h
  split_ifs at h with hleft hcap
  · cases h
  · exact hcap

/-- `Unpack` overflows only when the stream has more bits than `OBUF` has bytes (R148). -/
theorem outCap_lt_of_unpack {P : Params} {E : Bytes} {t : RevTable} (h : unpack P E t = .error .capacity) :
    P.outCap < 8 * E.length := by
  cases E with
  | nil => cases h
  | cons p rest =>
    cases hp : headerWf p with
    | false => rw [unpack_of_not_headerWf P rest t hp] at h; cases h
    | true =>
      by_cases hrest : rest = []
      · subst hrest; rw [unpack_singleton] at h; cases h
      · rw [unpack_of_headerWf P t hp hrest] at h
        calc P.outCap < (walk t (payloadBits p rest) [] []).1.length := outCap_lt_of_unpackResult h
          _ ≤ (payloadBits p rest).length := walk_length _ _ _
          _ = 8 * rest.length - p.toNat := payloadBits_length p rest
          _ ≤ 8 * (p :: rest).length := by rw [List.length_cons]; omega

/-- Settles O60: each Symbol takes at least one of the stream's bits. -/
theorem unpackNeverOverflows : Obligations.UnpackNeverOverflows := fun _ _ _ hcaps hlen h =>
  absurd (outCap_lt_of_unpack h) (Nat.not_lt.2 ((Nat.mul_le_mul_left 8 hlen).trans hcaps))

/-! ### The round trip -/

/-- The reverse table of a tree with distinct leaves is well formed (R30, R104). -/
theorem genCodes_wf {root : HuffNode} (hn : root.symbols.Nodup) : (genCodes root).rct.wf = true := by
  refine RevTable.wf_iff.2 ⟨fun e he => ?_, ?_, by rwa [genCodes_snd]⟩
  · have hpos := List.length_pos_of_ne_nil (genCodes_ne_nil root e he)
    have hlen := genCodes_length_le root e he
    have hdepth := root.depth_lt_symbols
    have hsyms := length_le_of_nodup hn
    have hmax : Config.codeMax = 255 := rfl
    simp only [codeWf, Bool.and_eq_true, decide_eq_true_eq]
    omega
  · exact List.pairwise_map.2 ((genCodes_pairwise_partsLeftOf root).imp fun h => h.lt.ne)

/-- The payload of a text is walked back to the text (R147 item 1). -/
theorem walk_concatCodes {root : HuffNode} (hn : root.symbols.Nodup) {S : Bytes} (hcov : ∀ x ∈ S, (genCodes root).ct x ≠ []) :
    walk (genCodes root).rct (concatCodes S (genCodes root).ct) [] [] = (S, []) := by
  have hes : ∀ e ∈ S.map fun x => ((genCodes root).ct x, x), ShortestMatch (genCodes root).rct e := fun e he => by
    obtain ⟨x, hx, rfl⟩ := List.mem_map.1 he
    exact shortestMatch_of_codesApart (genCodes_codesApart root) ((mem_genCodes_rct_iff hn).2 ⟨rfl, hcov x hx⟩)
  simpa [concatCodes, List.flatMap_map, Function.comp_def] using walk_flatMap_codes (genCodes_wf hn) hes []

/-- A packed stream is a well-formed header, which is the padding count, and bytes whose payload is the bits packed (R63, R114). -/
theorem bitsToBytes_streamBits (B : BitString) : ∃ p rest, bitsToBytes (streamBits B) = p :: rest ∧ rest ≠ [] ∧
    headerWf p = true ∧ p.toNat = padding B.length ∧ payloadBits p rest = B := by
  obtain ⟨hlow, hhigh⟩ := padding_bounds B.length
  have hp : (BitVec.ofNat 8 (padding B.length)).toNat = padding B.length := Nat.mod_eq_of_lt (by omega)
  have htail : (B ++ List.replicate (padding B.length) false).length = 8 * (B.length / 8 + 1) := by
    simp only [List.length_append, List.length_replicate, padding]
    omega
  have hlen := bitsToBytes_length htail
  refine ⟨_, bitsToBytes (B ++ List.replicate (padding B.length) false), ?_, ?_, headerWf_iff.2 ?_, hp, ?_⟩
  · rw [streamBits, header, List.append_assoc, bitsToBytes_byteBits_append]
  · exact List.ne_nil_of_length_eq_add_one hlen
  · rw [hp]; exact ⟨hlow, hhigh⟩
  · rw [payloadBits, bytesToBits_bitsToBytes htail, hp, hlen, ← htail, List.length_append, List.length_replicate,
      Nat.add_sub_cancel, List.take_left]

/-- Unpacking a packed stream walks over the bits packed. -/
theorem unpack_bitsToBytes_streamBits (P : Params) (B : BitString) (t : RevTable) :
    unpack P (bitsToBytes (streamBits B)) t = unpackResult P (walk t B [] []) B.length (padding B.length) := by
  obtain ⟨p, rest, hstream, hrest, hp, hpad, hpay⟩ := bitsToBytes_streamBits B
  rw [hstream, unpack_of_headerWf P t hp hrest, ← payloadBits_length, hpay, hpad]

/-- Settles O59: `Unpack` walks over the payload that `Pack` made, which is a concatenation of codes that are apart. -/
theorem unpackPackRoundTrip : Obligations.UnpackPackRoundTrip := by
  intro P S root pk hroot hpack hcap
  have hS := ne_nil_of_build hroot
  have hn : root.symbols.Nodup := (build_symbols_freq hS hroot).1.nodup_iff.2 (List.nodup_dedup S)
  obtain rfl := pack_ok hpack
  rw [unpack_bitsToBytes_streamBits, walk_concatCodes hn (genCodes_covers hS hroot)]
  exact (if_neg (not_not.2 rfl)).trans (if_neg (Nat.not_lt.2 hcap))

end Sys2Proof.Machine
end

section
/-! `COMPRESS` (47_commands.md R154): its outcome in each case, the numbers and bytes it delivers, and its frame. -/

namespace Sys2Proof.Machine

/-! ### The outcome, case by case -/

theorem compress_of_inCap_lt {P : Params} {s : State} (h : P.inCap < s.ilen.toNat) :
    s.compress P = s.failed .capacity true :=
  if_pos h

theorem compress_of_error {P : Params} {s : State} {e : ErrorKind} (hlen : s.ilen.toNat ≤ P.inCap)
    (h : compressText P s.inputBytes = .error e) : s.compress P = s.failed e true := by
  rw [State.compress, if_neg (Nat.not_lt.2 hlen), h]
  exact raiseError_obuf_cbuf s e

theorem compress_of_ok {P : Params} {s : State} {r : Compressed} (hlen : s.ilen.toNat ≤ P.inCap)
    (h : compressText P s.inputBytes = .ok r) : s.compress P = (s.deliverCompressed r).complete := by
  rw [State.compress, if_neg (Nat.not_lt.2 hlen), h]

/-- A `COMPRESS` that sets `DONE` has delivered what its text compresses to (R152). -/
theorem compress_of_done {P : Params} {s : State} (hd : (s.compress P).done = true) :
    ∃ r, s.ilen.toNat ≤ P.inCap ∧ compressText P s.inputBytes = .ok r ∧
      s.compress P = (s.deliverCompressed r).complete := by
  rcases compress_cases P s with ⟨e, hfail, -⟩ | hok
  · rw [hfail] at hd
    cases hd
  · exact hok

theorem compressText_of_trim_nil {P : Params} {X : Bytes} (h : trim P X = []) :
    compressText P X = .error .emptyInput := by
  simp [compressText, analyze, h]

/-- The text of a tree whose stream fits `OBUF` compresses to the stages' results (R154). -/
theorem compressText_of_fits {P : Params} {X : Bytes} {root : HuffNode} (hS : trim P X ≠ [])
    (hroot : build (countSymbols (trim P X)) = some root)
    (hfits : (concatCodes (trim P X) (genCodes root).ct).length / 8 + 2 ≤ P.outCap) :
    let B := concatCodes (trim P X) (genCodes root).ct
    compressText P X = .ok {
      packed := { stream := bitsToBytes (streamBits B), bitLen := B.length, pad := padding B.length }
      artifact := cbSer (genCodes root).rct, symLen := (trim P X).length
      nsym := (countSymbols (trim P X)).domain.length, rootFreq := root.freq } := by
  obtain ⟨pk, hpack⟩ := exists_pack_of_fits (genCodes_covers hS hroot) hfits
  obtain rfl := pack_ok hpack
  simp [compressText, analyze_of_ne_nil hS, hroot, hpack]

/-- Settles O17: the length is checked first, and the analyzer rejects an empty text. -/
theorem compressRaises : Obligations.CompressRaises := fun _ =>
  ⟨fun hcap => congrArg Host.Outcome.next (compress_of_inCap_lt hcap),
    fun hlen hS => congrArg Host.Outcome.next (compress_of_error hlen (compressText_of_trim_nil hS))⟩

/-- Settles O14: the stages' results are what `compressText` gives; the number of distinct Symbols is the size of the table's
domain, the root's frequency the length of the text, and a packed stream is two bytes longer than the payload's whole bytes. -/
theorem compressDelivers : Obligations.CompressDelivers := by
  intro s hlen hS
  obtain ⟨root, hroot, -⟩ := build_fib_depth_le hS
  refine ⟨root, hroot, fun hfits => ?_⟩
  have hrun := compress_of_ok hlen (compressText_of_fits hS hroot hfits)
  simp only [domain_length, (build_symbols_freq hS hroot).2] at hrun
  rw [exec, execCompress, hrun, State.deliverCompressed, bitsToBytes_length (streamBits_length _)]
  rfl

/-! ### The numbers delivered -/

theorem compressText_stream_length {P : Params} {X : Bytes} {r : Compressed} (h : compressText P X = .ok r) :
    r.packed.stream.length = r.packed.bitLen / 8 + 2 := by
  obtain ⟨-, root, pk, -, hpack, rfl⟩ := compressText_ok h
  obtain rfl := pack_ok hpack
  exact bitsToBytes_length (streamBits_length _)

theorem compressText_pad {P : Params} {X : Bytes} {r : Compressed} (h : compressText P X = .ok r) :
    r.packed.pad = 8 - r.packed.bitLen % 8 := by
  obtain ⟨-, root, pk, -, hpack, rfl⟩ := compressText_ok h
  obtain rfl := pack_ok hpack
  rfl

theorem compressText_nsym_pos {P : Params} {X : Bytes} {r : Compressed} (h : compressText P X = .ok r) : 1 ≤ r.nsym := by
  obtain ⟨hS, root, pk, -, -, rfl⟩ := compressText_ok h
  exact List.length_pos_iff.2 (domain_ne_nil hS)

theorem compressText_symLen_le {P : Params} {X : Bytes} {r : Compressed} (h : compressText P X = .ok r) :
    r.symLen ≤ X.length := by
  obtain ⟨-, root, pk, -, -, rfl⟩ := compressText_ok h
  exact trim_length_le P X

theorem inputBytes_length (s : State) : s.inputBytes.length = s.ilen.toNat :=
  State.memRead_length s .ibuf 0 _

/-- The numbers of a successful `COMPRESS` stand in its registers uncut (R17 to R21). -/
structure Compressed.Stored (r : Compressed) (t : State) : Prop where
  olen : t.olen.toNat = r.packed.stream.length
  clen : t.clen.toNat = r.artifact.length
  slen : t.slen.toNat = r.symLen
  nsym : t.nsym.toNat = r.nsym
  bitlen : t.bitlen.toNat = r.packed.bitLen
  pad : t.pad.toNat = r.packed.pad

theorem compressText_stored {X : Bytes} {r : Compressed} (h : compressText Config.hw X = .ok r) (s : State) :
    r.Stored (s.deliverCompressed r).complete := by
  obtain ⟨hout, hnsym, hpad, hsym, hbit⟩ := compressText_bounded h
  have hart := compressText_artifact_le h
  have hcap : Config.hw.outCap = 524288 := rfl
  have hcb : Config.cbCap = 66304 := rfl
  have hmax : Config.nsymMax = 256 := rfl
  simp only [Compressed.delivery] at hout hnsym hpad hsym hbit
  exact {
    olen := Nat.mod_eq_of_lt (by omega)
    clen := Nat.mod_eq_of_lt (by omega)
    slen := Nat.mod_eq_of_lt (by omega)
    nsym := Nat.mod_eq_of_lt (by omega)
    bitlen := Nat.mod_eq_of_lt (by omega)
    pad := Nat.mod_eq_of_lt (by omega) }

/-- Settles O16: the registers hold the numbers delivered, whose relations come from the stages. -/
theorem compressResultRelations : Obligations.CompressResultRelations := by
  intro s t hrun hd
  cases hrun
  obtain ⟨r, -, hr, hdone⟩ := compress_of_done hd
  rw [hdone]
  obtain ⟨-, hnsym, -, hsym, -⟩ := compressText_bounded hr
  have hpad := compressText_pad hr
  have hstored := compressText_stored hr s
  refine ⟨congrArg (BitVec.ofNat 32) (compressText_rootFreq hr), ?_⟩
  rw [hstored.nsym, hstored.pad, hstored.olen, hstored.bitlen, hstored.slen]
  refine ⟨compressText_nsym_pos hr, hnsym, by omega, by omega, compressText_stream_length hr, by omega, ?_, hsym⟩
  exact inputBytes_length s ▸ compressText_symLen_le hr

/-- Settles O19: what is delivered fits the registers, and a buffer after a delivery lists the sequence and nothing above it. -/
theorem compressStoresResults : Obligations.CompressStoresResults := by
  intro s t r hrun hlen hr
  cases hrun
  rw [compress_of_ok hlen hr]
  have hstored := compressText_stored hr s
  exact ⟨hstored.olen, hstored.clen, Memory.known_deliver _ _, Memory.known_deliver _ _⟩

/-! ### The frame -/

/-- Settles O18: neither the error entry nor the delivery writes `IBUF`, `ILEN` or `OPC`; the delivery leaves the error registers,
the error entry the results. -/
theorem compressFrame : Obligations.CompressFrame := by
  intro s t hrun
  cases hrun
  rcases compress_cases Config.hw s with ⟨e, h, -⟩ | ⟨r, -, -, h⟩ <;> rw [h]
  · exact ⟨rfl, fun off => byte_congr (b := .ibuf) rfl off, rfl, rfl, rfl, rfl, rfl,
      fun hd => absurd hd Bool.false_ne_true, fun _ => ⟨rfl, rfl, rfl, rfl, rfl, rfl, rfl⟩⟩
  · exact ⟨rfl, fun off => byte_congr (b := .ibuf) rfl off, rfl, rfl, rfl, rfl, rfl,
      fun _ => ⟨rfl, rfl⟩, fun hd => absurd hd.symm Bool.false_ne_true⟩

end Sys2Proof.Machine
end

section
/-! `DECOMPRESS` (47_commands.md R155): its outcome in each case and its frame, what it emits, and that it gives back what
`COMPRESS` compressed. -/

namespace Sys2Proof.Machine

/-! ### The outcome, case by case -/

theorem decompress_of_cap_lt {P : Params} {s : State} (h : P.inCap < s.ilen.toNat ∨ Config.cbCap < s.clen.toNat) :
    s.decompress P = s.failed .capacity false :=
  if_pos h

theorem decompress_of_error {P : Params} {s : State} {e : ErrorKind} (hlen : s.ilen.toNat ≤ P.inCap)
    (hcb : s.clen.toNat ≤ Config.cbCap) (h : decompressStream P s.codebookBytes s.inputBytes = .error e) :
    s.decompress P = s.failed e false := by
  rw [State.decompress, if_neg (by omega), h]
  exact raiseError_obuf s e

theorem decompress_of_ok {P : Params} {s : State} {r : Decompressed} (hlen : s.ilen.toNat ≤ P.inCap)
    (hcb : s.clen.toNat ≤ Config.cbCap) (h : decompressStream P s.codebookBytes s.inputBytes = .ok r) :
    s.decompress P = (s.deliverDecompressed r).complete := by
  rw [State.decompress, if_neg (by omega), h]

theorem decompressStream_of_cbLoad_error {P : Params} {T E : Bytes} {e : ErrorKind} (h : cbLoad T = .error e) :
    decompressStream P T E = .error e := by
  rw [decompressStream, h]

theorem decompressStream_of_unpack_error {P : Params} {T E : Bytes} {t : RevTable} {e : ErrorKind}
    (ht : cbLoad T = .ok t) (h : unpack P E t = .error e) : decompressStream P T E = .error e := by
  simp only [decompressStream, ht, h]

theorem decompressStream_of_ok {P : Params} {T E : Bytes} {t : RevTable} {u : Unpacked}
    (ht : cbLoad T = .ok t) (h : unpack P E t = .ok u) :
    decompressStream P T E = .ok { unpacked := u, nsym := t.length } := by
  simp only [decompressStream, ht, h]

/-- Settles O21: both stages succeed, and a buffer after a delivery lists the sequence and nothing above it. -/
theorem decompressDelivers : Obligations.DecompressDelivers := fun _ _ _ hlen hcb ht hu =>
  ⟨congrArg Host.Outcome.next (decompress_of_ok hlen hcb (decompressStream_of_ok ht hu)), Memory.known_deliver _ _⟩

/-- The one error of `Unpack` on an admitted stream: the output's capacity is never met (R148, R174). -/
theorem unpack_inputBytes_error {s : State} {t : RevTable} {e : ErrorKind} (hlen : s.ilen.toNat ≤ Config.hw.inCap)
    (h : unpack Config.hw s.inputBytes t = .error e) : e = .corruptStream := by
  refine (unpack_error h).resolve_right ?_
  rintro rfl
  exact unpackNeverOverflows _ _ _ (by decide) ((inputBytes_length s).trans_le hlen) h

/-- Settles O23: the lengths are checked first, then the codebook is loaded, then the stream unpacked; each of the two stages has
one error kind. -/
theorem decompressRaises : Obligations.DecompressRaises := by
  refine fun s => ⟨fun hcap => congrArg Host.Outcome.next (decompress_of_cap_lt hcap),
    fun hlen hcb => ⟨fun e ht => ?_, fun t e ht hu => ?_⟩⟩
  · obtain rfl := cbLoad_error ht
    exact congrArg Host.Outcome.next (decompress_of_error hlen hcb (decompressStream_of_cbLoad_error ht))
  · obtain rfl := unpack_inputBytes_error hlen hu
    exact congrArg Host.Outcome.next (decompress_of_error hlen hcb (decompressStream_of_unpack_error ht hu))

/-- Settles O24: neither the error entry nor the delivery writes `IBUF`, `CBUF`, their lengths or `OPC`; the delivery leaves the
error registers, the error entry the results. -/
theorem decompressFrame : Obligations.DecompressFrame := by
  intro s t hrun
  cases hrun
  rcases decompress_cases Config.hw s with ⟨e, h, -⟩ | ⟨r, -, -, -, h⟩ <;> rw [h]
  · exact ⟨rfl, rfl, fun off => byte_congr (b := .ibuf) rfl off, fun off => byte_congr (b := .cbuf) rfl off,
      rfl, rfl, rfl, rfl, rfl, rfl, fun hd => absurd hd Bool.false_ne_true, fun _ => ⟨rfl, rfl, rfl, rfl, rfl, rfl⟩⟩
  · exact ⟨rfl, rfl, fun off => byte_congr (b := .ibuf) rfl off, fun off => byte_congr (b := .cbuf) rfl off,
      rfl, rfl, rfl, rfl, rfl, rfl, fun _ => ⟨rfl, rfl⟩, fun hd => absurd hd.symm Bool.false_ne_true⟩

/-! ### Codebooks whose codes are apart -/

/-- A stream whose payload is a concatenation of codes of a table whose codes are apart unpacks to the entries' Symbols (R147 item 1). -/
theorem unpack_flatMap_codes {P : Params} {t : RevTable} {es : List Entry} {p : Byte} {rest : Bytes} (hwf : t.wf = true)
    (hapart : t.codesApart = true) (hp : headerWf p = true) (hrest : rest ≠ []) (hes : ∀ e ∈ es, e ∈ t)
    (hbits : payloadBits p rest = es.flatMap Prod.fst) (hfits : 8 * rest.length ≤ P.outCap) :
    unpack P (p :: rest) t =
      .ok { out := es.map Prod.snd, bitLen := 8 * rest.length - p.toNat, pad := p.toNat } := by
  have hwalk : walk t (payloadBits p rest) [] [] = (es.map Prod.snd, []) :=
    hbits ▸ walk_flatMap_codes hwf (fun e he => shortestMatch_of_codesApart hapart (hes e he)) []
  have hout : (es.map Prod.snd).length ≤ P.outCap :=
    calc (es.map Prod.snd).length ≤ (payloadBits p rest).length := by simpa [hwalk] using walk_length t (payloadBits p rest) []
      _ ≤ P.outCap := by rw [payloadBits_length]; omega
  rw [unpack_of_headerWf P t hp hrest, hwalk, unpackResult, if_neg (not_not.2 rfl), if_neg (Nat.not_lt.2 hout)]

/-- Settles O22: the loader reads the table back, and the walk cuts the payload at the entries' codes. -/
theorem decompressEmitsSymbols : Obligations.DecompressEmitsSymbols := by
  intro s t es p rest hlen hcb hne hwf hapart hbook hinput hp hrest hes hbits
  have ht : cbLoad s.codebookBytes = .ok t := hbook ▸ loadSerialized.1 t hne hwf
  have hfits : 8 * rest.length ≤ Config.hw.outCap := by
    have hinlen := inputBytes_length s
    rw [hinput, List.length_cons] at hinlen
    have : Config.hw.inCap = 65536 := rfl
    have : Config.hw.outCap = 524288 := rfl
    omega
  have hu := unpack_flatMap_codes hwf hapart hp hrest hes hbits hfits
  have hrun := (decompressDelivers s t _ hlen hcb ht (hinput ▸ hu)).1
  rwa [List.length_map, BitVec.ofNat_toNat] at hrun

/-! ### The round trip with `COMPRESS` -/

/-- The part of a buffer that a delivery filled reads back as what was delivered. -/
theorem memRead_deliver {s : State} {b : Buf} {m : Memory} {vs : Bytes} (h : s.mem b = m.deliver vs) :
    s.memRead b 0 vs.length = vs :=
  State.memRead_of_known s b vs fun o _ => by rw [h, Memory.known_deliver]

/-- The tables of a text have one entry for each distinct Symbol. -/
theorem genCodes_rct_length {S : Bytes} {root : HuffNode} (h : build (countSymbols S) = some root) :
    (genCodes root).rct.length = (countSymbols S).domain.length := by
  have hsym := (build_symbols_freq (ne_nil_of_build h) h).1.length_eq
  rw [domain_length, ← hsym, ← genCodes_snd, List.length_map]

theorem cbLoad_cbSer_genCodes {S : Bytes} {root : HuffNode} (h : build (countSymbols S) = some root) :
    cbLoad (cbSer (genCodes root).rct) = .ok (genCodes root).rct := by
  have hS := ne_nil_of_build h
  have hn : root.symbols.Nodup := (build_symbols_freq hS h).1.nodup_iff.2 (List.nodup_dedup S)
  refine loadSerialized.1 _ (List.ne_nil_of_length_pos ?_) (genCodes_wf hn)
  rw [genCodes_rct_length h]
  exact List.length_pos_iff.2 (domain_ne_nil hS)

/-- What a text compresses to decompresses to the text without its trailing whitespace (R2, R147 item 1, R199). -/
theorem decompressStream_of_compressText {P : Params} {X : Bytes} {r : Compressed} (h : compressText P X = .ok r)
    (hfits : X.length ≤ P.outCap) :
    decompressStream P r.artifact r.packed.stream =
      .ok { unpacked := { out := trim P X, bitLen := r.packed.bitLen, pad := r.packed.pad }, nsym := r.nsym } := by
  obtain ⟨-, root, pk, hroot, hpack, rfl⟩ := compressText_ok h
  have hu := unpackPackRoundTrip P _ root pk hroot hpack ((trim_length_le P X).trans hfits)
  rw [decompressStream_of_ok (cbLoad_cbSer_genCodes hroot) hu, genCodes_rct_length hroot]

theorem compressText_symLen {P : Params} {X : Bytes} {r : Compressed} (h : compressText P X = .ok r) :
    r.symLen = (trim P X).length := by
  obtain ⟨-, root, pk, -, -, rfl⟩ := compressText_ok h
  rfl

/-- Settles O25: the operands of the `DECOMPRESS` are the artifact and the stream that the text compressed to, which decompress to
the trimmed text; so both commands deliver the same numbers. -/
theorem compressThenDecompress : Obligations.CompressThenDecompress := by
  intro s t u hrun hd hfits hilen hinput hclen hbook
  cases hrun
  obtain ⟨r, hlen, hr, hdone⟩ := compress_of_done hd
  rw [hdone] at hfits hilen hinput hclen hbook ⊢
  have hstored := compressText_stored hr s
  have hstream : u.inputBytes = r.packed.stream := by
    rw [hinput, hstored.olen]
    exact memRead_deliver (b := .obuf) rfl
  have hartifact : u.codebookBytes = r.artifact := by
    rw [hbook, State.codebookBytes, hstored.clen]
    exact memRead_deliver (b := .cbuf) rfl
  have hcaps : s.inputBytes.length ≤ Config.hw.outCap := (inputBytes_length s).trans_le (hlen.trans (by decide))
  have hback := decompressStream_of_compressText hr hcaps
  have hdecomp := decompress_of_ok (s := u) (hilen ▸ hfits) (by rw [hclen, hstored.clen]; exact compressText_artifact_le hr)
    (by rw [hartifact, hstream]; exact hback)
  have hslen := compressText_symLen hr
  refine ⟨_, congrArg Host.Outcome.next hdecomp, rfl, congrArg (BitVec.ofNat 32) hslen.symm,
    congrArg (BitVec.ofNat 32) hslen.symm, rfl, rfl, rfl, rfl, ?_⟩
  have holen : (BitVec.ofNat 32 (trim Config.hw s.inputBytes).length).toNat = (trim Config.hw s.inputBytes).length := by
    rw [← hslen]
    exact hstored.slen
  simp only [State.complete_olen, State.deliverDecompressed_olen, holen]
  exact memRead_deliver (b := .obuf) rfl

end Sys2Proof.Machine
end

section
/-! The commands that store nothing (47_commands.md R153, R156, R157), the acceptance of a command (R150, R181), and the engine's
turn (R151, R158, R161). -/

namespace Sys2Proof.Machine

/-! ### `NOP`, `CLRERR`, `CLEAR` -/

/-- Settles O10: completion writes `BUSY` and `DONE`. -/
theorem nopCompletes : Obligations.NopCompletes := fun _ => rfl

/-- Settles O11: the acknowledgement writes `ERR` and `ERRCODE`, completion `BUSY` and `DONE`. -/
theorem clrerrCompletes : Obligations.ClrerrCompletes := fun _ => rfl

theorem readReg_clearRegisters (s : State) (n : Nat) : s.clearRegisters.readReg n = 0 := by
  unfold State.readReg
  split <;> rfl

/-- Settles O12: `CLEAR` makes every register and `OPC` 0 and touches nothing else. -/
theorem clearCompletes : Obligations.ClearCompletes := fun s =>
  ⟨_, rfl, readReg_clearRegisters s, rfl, rfl, rfl, rfl, rfl, rfl, rfl, rfl, rfl, rfl⟩

theorem exec_nonWork_mem {i : Instr} {s t : State} (hi : i = .nop ∨ i = .clrerr ∨ i = .clear) (h : exec i s = .next t)
    (b : Buf) : t.mem b = s.mem b := by
  rcases hi with rfl | rfl | rfl <;> cases h <;> cases b <;> rfl

/-- Settles O13: the three commands leave each buffer as it is, with all its bytes. -/
theorem nonWorkCommandsKeepBuffers : Obligations.NonWorkCommandsKeepBuffers := fun _ _ _ hi hrun =>
  have hmem := exec_nonWork_mem hi hrun
  ⟨fun b off => byte_congr (hmem b) off, fun b off => congrArg (Memory.known · off) (hmem b)⟩

/-! ### Acceptance -/

theorem hostWriteReg_cmd_accepted {s : State} {w : Word} (hb : s.busy = false)
    (hadm : s.err = false ∨ w = encode .clrerr ∨ w = encode .clear) : s.hostWriteReg 0 w = s.accept w := by
  have hguard : ¬(s.err = true ∧ w ≠ encode .clrerr ∧ w ≠ encode .clear) := fun ⟨herr, h1, h2⟩ => by
    rcases hadm with h | h | h
    · exact Bool.false_ne_true (h.symm.trans herr)
    · exact h1 h
    · exact h2 h
  simp only [State.hostWriteReg, State.requestCommand, hb, Bool.false_eq_true, if_false, if_neg hguard]

theorem hostWriteReg_cmd_refused {s : State} {w : Word} (hb : s.busy = false) (herr : s.err = true)
    (h1 : w ≠ encode .clrerr) (h2 : w ≠ encode .clear) : s.hostWriteReg 0 w = s := by
  simp [State.hostWriteReg, State.requestCommand, hb, herr, h1, h2]

/-- Settles O32: the write is one host event, which is accepted or dropped; acceptance tells the two work commands apart from the
rest. -/
theorem commandAcceptance : Obligations.CommandAcceptance := by
  intro s w rest hs
  have hstep : step s = .next (State.hostWriteReg { s with script := rest } 0 w) := step_of_hostEvent hs (by simp)
  rw [hstep]
  refine ⟨fun hb hadm => ?_, fun hb herr h1 h2 => ?_, fun hb => ?_⟩
  · rw [hostWriteReg_cmd_accepted (s := { s with script := rest }) hb hadm]
    refine ⟨?_, ?_, fun h1 h2 => ?_⟩
    · rintro rfl; exact congrArg Host.Outcome.next (accept_compress _)
    · rintro rfl; exact congrArg Host.Outcome.next (accept_decompress _)
    · exact congrArg Host.Outcome.next (accept_other _ w h1 h2)
  · rw [hostWriteReg_cmd_refused (s := { s with script := rest }) hb herr h1 h2]
  · rw [hostWriteReg_busy (s := { s with script := rest }) hb]

/-! ### The engine's turn -/

theorem popped_of_cons {s : State} {e : Event} {rest : List Event} (hs : s.script = e :: rest) :
    s.popped = { s with script := rest } := by
  simp only [State.popped, hs, List.tail_cons]

/-- The engine's turn acts on the state with its event taken off the script (log 1, log 2). -/
theorem step_of_engineNext {s : State} (h : s.engineNext) : step s = engineTurn s.popped := by
  rcases h with hs | ⟨rest, hs⟩
  · rw [popped_of_nil hs, step, hs]
  · rw [popped_of_cons hs, step, hs]
    rfl

theorem engineTurn_idle {s : State} (hb : s.busy = false) : engineTurn s = .next s := by
  simp [engineTurn, hb]

theorem engineTurn_command {s : State} {i : Instr} (hb : s.busy = true) (hi : decodeWord s.opc = .ok i) :
    engineTurn s = exec i s := by
  rw [engineTurn, if_pos hb, executeLatched, State.fetchCommand, hi]

theorem engineTurn_reserved {s : State} {e : DecodeError} (hb : s.busy = true) (he : decodeWord s.opc = .error e) :
    engineTurn s = .next (s.raiseError .illegalCommand []) := by
  rw [engineTurn, if_pos hb, executeLatched, State.fetchCommand, he, execReserved]

/-- A claim about the engine's turn holds for both forms of the script that give the turn to the engine. -/
theorem step_engine_forms {s : State} {f : State → Host.Outcome State Fault Refusal}
    (h : s.engineNext → step s = f s.popped) :
    (s.script = [] → step s = f s) ∧ ∀ rest, s.script = .engine :: rest → step s = f { s with script := rest } :=
  ⟨fun hs => (h (.inl hs)).trans (congrArg f (popped_of_nil hs)),
    fun rest hs => (h (.inr ⟨rest, hs⟩)).trans (congrArg f (popped_of_cons hs))⟩

/-- Settles O6: the engine's turn is `exec` of the command in `OPC`, or nothing at `BUSY = 0`. -/
theorem stepRunsLatchedCommand : Obligations.StepRunsLatchedCommand :=
  ⟨fun s i hb hi => step_engine_forms (f := exec i) fun hn =>
      (step_of_engineNext hn).trans (engineTurn_command (s := s.popped) hb hi),
    fun s hb => step_engine_forms (f := .next) fun hn =>
      (step_of_engineNext hn).trans (engineTurn_idle (s := s.popped) hb)⟩

/-- Settles O7: a word that is no command's does not decode, and its error entry loses no buffer. -/
theorem reservedWordFails : Obligations.ReservedWordFails := by
  intro s hb hw
  refine step_engine_forms (f := fun s => .next (s.raiseError .illegalCommand [])) fun hn => ?_
  cases hd : decodeWord s.opc with
  | ok i => exact absurd (decodeWord_eq_ok_iff.1 hd) (hw i)
  | error e => exact (step_of_engineNext hn).trans (engineTurn_reserved (s := s.popped) hb hd)

theorem exists_exec (i : Instr) (s : State) : ∃ t, exec i s = .next t := by
  cases i <;> exact ⟨_, rfl⟩

theorem exists_engineTurn (s : State) : ∃ t, engineTurn s = .next t := by
  cases hb : s.busy with
  | false => exact ⟨s, engineTurn_idle hb⟩
  | true =>
    cases hd : decodeWord s.opc with
    | ok i => rw [engineTurn_command hb hd]; exact exists_exec i s
    | error e => exact ⟨_, engineTurn_reserved hb hd⟩

/-- Settles O8: no command is refused, a reserved word is an error entry, and every host event has a next state. -/
theorem stepIsTotal : Obligations.StepIsTotal := by
  intro s
  by_cases hn : s.engineNext
  · rw [step_of_engineNext hn]
    exact exists_engineTurn _
  · obtain ⟨hnil, hengine⟩ := not_or.1 hn
    obtain ⟨e, rest, hs⟩ := List.exists_cons_of_ne_nil hnil
    exact ⟨_, step_of_hostEvent hs fun he => hengine ⟨rest, he ▸ hs⟩⟩

/-! ### Runs to the engine's turn -/

theorem core_run_one (s : State) : Host.Core.run Sys2Proof.core 1 s = step s := by
  obtain ⟨t, ht⟩ := stepIsTotal s
  exact (core_run_succ ht).trans ht.symm

/-- Host accesses while a command is pending change only the answers, so the run to the engine's turn ends in the command's
meaning (R43, R151). -/
theorem run_pending_command {i : Instr} {before rest : List Event} {s : State} (hb : s.busy = true) (hi : s.opc = encode i)
    (hhost : ∀ e ∈ before, e ≠ .engine ∧ e ≠ .hardReset)
    (hs : s.script = before ∧ rest = [] ∨ s.script = before ++ .engine :: rest) :
    ∃ as, Host.Core.run Sys2Proof.core (before.length + 1) s = exec i { s with script := rest, answers := as } := by
  induction before generalizing s with
  | nil =>
    obtain ⟨hnil, hturn⟩ := stepRunsLatchedCommand.1 s i hb (decodeWord_eq_ok_iff.2 hi)
    refine ⟨s.answers, (core_run_one s).trans ?_⟩
    rcases hs with ⟨hs, rfl⟩ | hs
    · exact hs ▸ hnil hs
    · exact hturn rest hs
  | cons e before ih =>
    obtain ⟨⟨hengine, hreset⟩, hhost⟩ := List.forall_mem_cons.1 hhost
    obtain ⟨tail, hcons, htail⟩ : ∃ tail, s.script = e :: tail ∧
        (tail = before ∧ rest = [] ∨ tail = before ++ .engine :: rest) := by
      rcases hs with ⟨hs, hrest⟩ | hs
      · exact ⟨before, hs, .inl ⟨rfl, hrest⟩⟩
      · exact ⟨_, hs, .inr rfl⟩
    obtain ⟨as, has⟩ := hostEvent_busy Config.hw { s with script := tail } e hb hengine hreset
    have hstep := step_of_hostEvent hcons hengine
    rw [has] at hstep
    rw [List.length_cons, core_run_succ hstep]
    exact ih (s := { s with script := tail, answers := as }) hb hi hhost htail

/-- Every step takes its event off the script. -/
theorem StepEffect.script_eq {s t : State} (e : StepEffect s t) : t.script = s.script.tail := by
  cases e with
  | accepted _ _ _ => rw [accept_eq]
  | byteWritten _ _ _ _ => exact State.setMem_script _ _ _
  | _ => rfl

/-- Every command ends with `BUSY = 0`. -/
theorem exec_idle {i : Instr} {s t : State} (h : exec i s = .next t) : t.busy = false := by
  cases i with
  | nop | clrerr | clear => cases h; rfl
  | compress => obtain ⟨-, -, -, -, -, -, hb, -⟩ := compressFrame s t h; exact hb
  | decompress => obtain ⟨-, -, -, -, -, -, -, -, -, hb, -⟩ := decompressFrame s t h; exact hb

/-- The engine's turn leaves nothing pending (R151). -/
theorem idle_of_engineTurn {s t : State} (h : engineTurn s = .next t) : t.busy = false := by
  cases hb : s.busy with
  | false => rw [engineTurn_idle hb] at h; cases h; exact hb
  | true =>
    cases hd : decodeWord s.opc with
    | ok i => rw [engineTurn_command hb hd] at h; exact exec_idle h
    | error e => rw [engineTurn_reserved hb hd] at h; cases h; rfl

/-- One step more than the script has events ends in the engine's turn on an empty script. -/
theorem run_script_idle {es : List Event} {s : State} (hs : s.script = es) :
    ∃ t, Host.Core.run Sys2Proof.core (es.length + 1) s = .next t ∧ t.busy = false ∧ t.script = [] := by
  induction es generalizing s with
  | nil =>
    obtain ⟨t, ht⟩ := stepIsTotal s
    have hturn : engineTurn s.popped = .next t := (step_of_engineNext (.inl hs)).symm.trans ht
    exact ⟨t, (core_run_one s).trans ht, idle_of_engineTurn hturn, (step_effect ht).script_eq.trans (congrArg List.tail hs)⟩
  | cons e es ih =>
    obtain ⟨t, ht⟩ := stepIsTotal s
    rw [List.length_cons, core_run_succ ht]
    exact ih ((step_effect ht).script_eq.trans (congrArg List.tail hs))

/-- Settles O9: the run to the engine's turn keeps the pending command and its operands, and the run over the whole script ends in
an engine's turn. -/
theorem pendingCommandIsExecuted : Obligations.PendingCommandIsExecuted :=
  ⟨fun _ _ _ _ hb hi hhost hs => run_pending_command hb hi hhost hs, fun _ => run_script_idle rfl⟩

end Sys2Proof.Machine
end

section
/-! The error state (60_exceptions.md R179 to R181): what a failed work command delivers, and what raises, keeps and acknowledges an
error. -/

namespace Sys2Proof.Machine

/-- Every pending command but `CLRERR` and `CLEAR` was admitted outside the error state (R181). -/
theorem FlagsLegal.err_of_busy {s : State} (h : FlagsLegal s) (busy : s.busy = true) (hclrerr : s.opc ≠ encode .clrerr)
    (hclear : s.opc ≠ encode .clear) : s.err = false :=
  Bool.eq_false_iff.2 fun herr => (h.busy_err busy herr).elim hclrerr hclear

theorem FlagsLegal.err_of_work {s : State} (h : FlagsLegal s) (busy : s.busy = true) (work : isWork s.opc = true) :
    s.err = false := by
  rcases isWork_iff.1 work with hopc | hopc <;> exact h.err_of_busy busy (by rw [hopc]; decide) (by rw [hopc]; decide)

/-! ### A failed work command -/

/-- Settles O37: a work command is pending at `ERR` = 0, so it ended in its error entry; this writes no result register, and these
are 0 since acceptance. -/
theorem failedWorkDeliversNothing : Obligations.FailedWorkDeliversNothing := by
  intro s t i hinv hb hopc hi hrun herr
  have hwork : isWork s.opc = true := isWork_iff.2 (hopc ▸ hi.imp (congrArg encode) (congrArg encode))
  have hzero : s.resultsZero := hinv.results.pending_zero hb hwork
  have hnoerr : s.err = false := hinv.flags.err_of_work hb hwork
  rcases hi with rfl | rfl <;> cases hrun
  · rcases compress_cases Config.hw s with ⟨e, h, -⟩ | ⟨r, -, -, h⟩ <;> rw [h] at herr ⊢
    · exact ⟨hzero, Memory.known_forget _, rfl, rfl,
        fun _ => ⟨hinv.results.pending_clen hb hopc, Memory.known_forget _⟩, nofun⟩
    · exact absurd (hnoerr.symm.trans herr) Bool.false_ne_true
  · rcases decompress_cases Config.hw s with ⟨e, h, -⟩ | ⟨r, -, -, -, h⟩ <;> rw [h] at herr ⊢
    · exact ⟨hzero, Memory.known_forget _, rfl, rfl, nofun, fun _ => ⟨rfl, rfl⟩⟩
    · exact absurd (hnoerr.symm.trans herr) Bool.false_ne_true

/-! ### The error registers -/

theorem State.Executes.opc_ne {s : State} {i j : Instr} (exe : s.Executes i) (hij : i ≠ j) : s.opc ≠ encode j := fun hj =>
  hij (encode_injective (exe.opc.symm.trans hj))

theorem opc_ne_of_reserved {s : State} (reserved : ∃ e, decodeWord s.opc = .error e) (i : Instr) : s.opc ≠ encode i := by
  obtain ⟨e, he⟩ := reserved
  intro hi
  rw [decodeWord_eq_ok_iff.2 hi] at he
  cases he

/-- What a step does to `ERR` and `ERRCODE`: an acknowledgement clears them (R180), an error entry of a command other than `CLRERR`
and `CLEAR` writes them (R179), and every other step keeps them. -/
theorem StepEffect.error_cases {s t : State} (e : StepEffect s t) :
    (t.err = false ∧ ((∃ rest, s.script = .hardReset :: rest) ∨ s.Executes .clrerr ∨ s.Executes .clear)) ∨
    (t.err = true ∧ s.busy = true ∧ s.opc ≠ encode .clrerr ∧ s.opc ≠ encode .clear) ∨
    (t.err = s.err ∧ t.errcode = s.errcode) := by
  cases e with
  | reset event => exact .inl ⟨rfl, .inl ⟨_, event⟩⟩
  | clrerr exe => exact .inl ⟨rfl, .inr (.inl exe)⟩
  | clear exe => exact .inl ⟨rfl, .inr (.inr exe)⟩
  | compressFailed exe _ | decompressFailed exe _ =>
    exact .inr (.inl ⟨rfl, exe.busy, exe.opc_ne (by decide), exe.opc_ne (by decide)⟩)
  | reservedWord _ busy reserved =>
    exact .inr (.inl ⟨rfl, busy, opc_ne_of_reserved reserved _, opc_ne_of_reserved reserved _⟩)
  | accepted _ _ _ => rw [accept_eq]; exact .inr (.inr ⟨rfl, rfl⟩)
  | byteWritten _ _ _ _ => exact .inr (.inr ⟨State.setMem_err _ _ _, State.setMem_errcode _ _ _⟩)
  | quiet _ | ilenWritten _ _ | clenWritten _ _ | nop _ | compressed _ _ | decompressed _ _ _ => exact .inr (.inr ⟨rfl, rfl⟩)

/-- Settles O38: `ERR` falls only by an acknowledgement; a second error entry, which could change `ERRCODE`, would need a command
pending at `ERR` = 1 that was never admitted there. -/
theorem errorIsSticky : Obligations.ErrorIsSticky := by
  intro s t hstep herr
  rcases (step_effect hstep).error_cases with ⟨hfall, hack⟩ | ⟨hraised, busy, hclrerr, hclear⟩ | ⟨hkeep, hcode⟩
  · refine ⟨.inr ?_, fun _ ht => absurd (hfall.symm.trans ht) Bool.false_ne_true⟩
    rcases hack with hreset | exe | exe
    · exact .inl hreset
    · exact .inr ⟨exe.busy, .inl exe.opc, exe.turn⟩
    · exact .inr ⟨exe.busy, .inr exe.opc, exe.turn⟩
  · refine ⟨.inl hraised, fun hflags _ => ?_⟩
    exact absurd ((hflags.err_of_busy busy hclrerr hclear).symm.trans herr) Bool.false_ne_true
  · exact ⟨.inl (hkeep.trans herr), fun _ _ => hcode⟩

end Sys2Proof.Machine
end

section
/-! Hardware reset at any moment (70_reset_and_hazards.md R190, R191). -/

namespace Sys2Proof.Machine

/-- R190: no register is left out of the reset. -/
theorem readReg_hardwareReset (s : State) (n : Nat) : s.hardwareReset.readReg n = 0 := by
  unfold State.readReg
  split <;> rfl

/-- R191: a reset also drops a pending command, so `BUSY` hides no register from the host. -/
theorem hostReadReg_hardwareReset (s : State) (n : Nat) : s.hardwareReset.hostReadReg n = 0 :=
  (hostReadReg_idle s.hardwareReset_busy n).trans (readReg_hardwareReset s n)

/-- R190: no byte of any buffer keeps a specified value. -/
theorem known_hardwareReset (s : State) (b : Buf) (off : Nat) : (s.hardwareReset.mem b).known off = none := by
  cases b with
  | ibuf => exact Memory.known_forget s.ibuf off
  | obuf => exact Memory.known_forget s.obuf off
  | cbuf => exact Memory.known_forget s.cbuf off

/-- Settles O5: the reset event's step is `hardwareReset`, which tests neither `BUSY` nor `ERR` first. -/
theorem hardwareResetFromAnyState : Obligations.HardwareResetFromAnyState := fun s rest hs =>
  ⟨State.hardwareReset { s with script := rest }, step_of_hostEvent hs (by simp), hostReadReg_hardwareReset _,
    rfl, rfl, rfl, rfl, rfl, known_hardwareReset _, rfl, rfl⟩

end Sys2Proof.Machine
end
